-- ==== Sys2Proof/Word.lean ====
section
/-! DEFINITION. The words of the Cloak frame codec (00_scope.md R17, R18): bytes, the unsigned integers u16, u32
and u64, byte sequences, and the two records every command is about, the nonce and the logical frame. -/

namespace Sys2Proof

/-- A byte: 8 bits, bit 0 the least significant (R17). -/
abbrev Byte := BitVec 8

/-- An unsigned 16-bit integer: the length field (R12, R17). -/
abbrev U16 := BitVec 16

/-- An unsigned 32-bit integer: StreamID, Seq, K1, K2 and every word of SHA-1 (R12, R17). -/
abbrev U32 := BitVec 32

/-- An unsigned 64-bit integer: SHA-1's message length in bits (R118). -/
abbrev U64 := BitVec 64

/-- A finite sequence of bytes (R18): messages, keys, records, payloads. -/
abbrev Bytes := List Byte

/-- A nonce is exactly three bytes, in order (R83). It is never an integer in the codec. -/
structure Nonce where
  n0 : Byte
  n1 : Byte
  n2 : Byte
deriving DecidableEq, Repr

/-- The logical frame (R70). `closing` is any 8-bit value, opaque to the codec. -/
structure Frame where
  streamId : U32
  seq : U32
  closing : Byte
  payload : Bytes
deriving DecidableEq, Repr

end Sys2Proof
end

