-- ==== Sys2Proof/Config.lean ====
section
/-! DEFINITION. What an implementation of the CFC fixes (00_scope.md R12 to R15), at the values this spec gives.
LATENCY and PLATFORM_WRAPPER (R285, R58) have no counterpart: the model has no time and no wrapper.
The spec leaves no result of a command undefined, so there is no free value here: ENTROPY's draws (R16, R35) are
inputs of the step, held in State. -/

namespace Sys2Proof

/-- KEY_MAX_BYTES (R13): the largest key the key register holds. The spec's value; the parameter is open (log 8). -/
abbrev Config.keyMaxBytes : Nat := 64

/-- MAX_MSG_BYTES (R14): the largest command message. The spec's value; the parameter is open (log 8). -/
abbrev Config.maxMsgBytes : Nat := 65541

/-- The largest payload, `65535 - 12` (R12, R79): fixed by the 16-bit length field. -/
abbrev Config.maxPayloadBytes : Nat := 65523

/-- The smallest record, preamble and masked header (R12, R79). -/
abbrev Config.minRecordBytes : Nat := 17

/-- MASK_DERIVATION (R15): which digest the mask deriver uses. -/
inductive MaskDerivation
  /-- `SHA1(key || nonce)`, the normative derivation (R114). -/
  | sha1KeyNonce
  /-- `key || nonce || SHA1([])`, kept for checks against the original program (R115). -/
  | goSumAppend
deriving DecidableEq, Repr

/-- This spec's value of MASK_DERIVATION (R15, R114; 90_conflicts.md C3; log 8). -/
abbrev Config.maskDerivation : MaskDerivation := .sha1KeyNonce

end Sys2Proof
end

