-- ==== Sys2Proof/Machine/Bytes.lean ====
section
/-! DEFINITION. The operations on byte sequences (00_scope.md R18) and the byte order of integers in them
(20_memory.md R51, R52): big-endian, always (R53). These replace memory reads and writes, since the CFC has no
memory (R50). -/

namespace Sys2Proof

/-- `b[i..j)`: bytes i to j-1 (R18). -/
def slice (b : Bytes) (i j : Nat) : Bytes := (b.drop i).take (j - i)

/-- Byte i of a sequence. Every use is guarded by a length check; past the end it is 0x00, which no rule reads. -/
def byteAt (b : Bytes) (i : Nat) : Byte := b.getD i 0#8

/-- `be16(b)` (R18): `b[0]·2^8 + b[1]`. -/
def be16 (b : Bytes) : U16 := BitVec.ofNat 16 ((byteAt b 0).toNat * 2 ^ 8 + (byteAt b 1).toNat)

/-- `be32(b)` (R18): `b[0]·2^24 + b[1]·2^16 + b[2]·2^8 + b[3]`. -/
def be32 (b : Bytes) : U32 :=
  BitVec.ofNat 32 ((byteAt b 0).toNat * 2 ^ 24 + (byteAt b 1).toNat * 2 ^ 16 + (byteAt b 2).toNat * 2 ^ 8
    + (byteAt b 3).toNat)

/-- `bytes16(v)` (R18). -/
def bytes16 (v : U16) : Bytes := [v.extractLsb' 8 8, v.extractLsb' 0 8]

/-- `bytes32(v)` (R18). -/
def bytes32 (v : U32) : Bytes := [v.extractLsb' 24 8, v.extractLsb' 16 8, v.extractLsb' 8 8, v.extractLsb' 0 8]

/-- `bytes64(v)` (R118). -/
def bytes64 (v : U64) : Bytes := bytes32 (v.extractLsb' 32 32) ++ bytes32 (v.extractLsb' 0 32)

/-- `a ^ b` of two sequences of equal length: bytewise XOR (R18). Lane i is `a[i] ^ b[i]`, nothing crosses
between lanes (R141). -/
def xorBytes (a b : Bytes) : Bytes := List.zipWith (· ^^^ ·) a b

/-- The three bytes of a nonce, in order (R83). -/
def nonceBytes (n : Nonce) : Bytes := [n.n0, n.n1, n.n2]

/-- The nonce whose bytes are the first three of a sequence (R83, R102). -/
def nonceOf (b : Bytes) : Nonce := ⟨byteAt b 0, byteAt b 1, byteAt b 2⟩

end Sys2Proof
end

