-- ==== Sys2Proof/Machine/Flags.lean ====
section
/-! DEFINITION. The CFC has no flags, condition codes or predicates (10_state.md R30): the outcome of a command is
the status byte of its response. This file holds the status codes (30_encoding.md R97) and the bits of the
configuration byte (10_state.md R27). -/

namespace Sys2Proof

/-- The errors a command can raise (R97, 60_exceptions.md R232 to R241). -/
inductive Err
  /-- DECODE: record shorter than 17 bytes (R232). -/
  | tooShort
  /-- ENCODE: payload longer than 65523 bytes (R233). -/
  | payloadTooLarge
  /-- ENCODE: ENTROPY answered FAIL (R234). -/
  | entropyUnavailable
  /-- DECODE with CHKPRE: record bytes 0..2 are not `17 03 03` (R235). -/
  | badPreamble
  /-- DECODE with CHKLEN: declared length differs from `len(record) - 5` (R236). -/
  | lengthMismatch
  /-- DERIVE, ENCODE, DECODE: KEY_VALID = 0 (R237). -/
  | keyNotLoaded
  /-- SETKEY: key longer than KEY_MAX_BYTES (R238). -/
  | keyTooLong
  /-- Opcode not 0x01 to 0x05 (R239). -/
  | illegalCommand
  /-- Empty message, a fixed length wrong, or a reserved CFG bit set (R240). -/
  | malformedCommand
  /-- Message longer than MAX_MSG_BYTES (R241). -/
  | inputTooLarge
deriving DecidableEq, Repr

/-- The status code of success (R97). -/
def okCode : Byte := 0x00#8

/-- The status code of an error (R97). -/
def Err.code : Err → Byte
  | .tooShort => 0x01#8
  | .payloadTooLarge => 0x02#8
  | .entropyUnavailable => 0x03#8
  | .badPreamble => 0x04#8
  | .lengthMismatch => 0x05#8
  | .keyNotLoaded => 0x06#8
  | .keyTooLong => 0x07#8
  | .illegalCommand => 0x08#8
  | .malformedCommand => 0x09#8
  | .inputTooLarge => 0x0A#8

/-- CFG.CHKPRE, bit 0 of a configuration byte (R27). -/
def chkPreBit (c : Byte) : Bool := c.getLsbD 0

/-- CFG.CHKLEN, bit 1 of a configuration byte (R27). -/
def chkLenBit (c : Byte) : Bool := c.getLsbD 1

/-- The reserved bits 7:2 of a configuration byte (R27, R93). -/
def cfgReserved (c : Byte) : BitVec 6 := c.extractLsb' 2 6

end Sys2Proof
end

