-- ==== Sys2Proof/Machine/Operands.lean ====
section
/-! DEFINITION. Operand assembly (30_encoding.md R102): every operand is a byte, a big-endian group of bytes at a
fixed offset of the message, or the tail of the message. None is scaled, shifted or sign-extended. -/

namespace Sys2Proof

/-- The opcode, byte 0 of a message (R85). -/
def opcodeOf (cmd : Bytes) : Byte := byteAt cmd 0

/-- SETKEY's key, `cmd[1..L)` (R87, R102). -/
def keyOperand (cmd : Bytes) : Bytes := cmd.drop 1

/-- SETCFG's configuration byte, `cmd[1]` (R88, R102). -/
def cfgOperand (cmd : Bytes) : Byte := byteAt cmd 1

/-- DERIVE's nonce, `cmd[1..4)` (R89, R102). -/
def nonceOperand (cmd : Bytes) : Nonce := nonceOf (slice cmd 1 4)

/-- ENCODE's StreamID, `be32(cmd[1..5))` (R90, R102). -/
def streamIdOperand (cmd : Bytes) : U32 := be32 (slice cmd 1 5)

/-- ENCODE's Seq, `be32(cmd[5..9))` (R90, R102). -/
def seqOperand (cmd : Bytes) : U32 := be32 (slice cmd 5 9)

/-- ENCODE's Closing, `cmd[9]` (R90, R102). -/
def closingOperand (cmd : Bytes) : Byte := byteAt cmd 9

/-- ENCODE's Payload, `cmd[10..L)` (R90, R102). -/
def payloadOperand (cmd : Bytes) : Bytes := cmd.drop 10

/-- DECODE's record, `cmd[1..L)` (R91, R102). -/
def recordOperand (cmd : Bytes) : Bytes := cmd.drop 1

end Sys2Proof
end

