-- ==== Sys2Proof/Syntax.lean ====
section
/-! DEFINITION. The command set (30_encoding.md R86): one constructor for each row of spec/opcode_table.json. -/

namespace Sys2Proof

/-- A command of the CFC, with its operands assembled (R102). The messages that are no such command are the
decoder's errors (Sys2Proof/Decode.lean). A term may break a limit of its format (a key longer than KEY_MAX_BYTES,
a reserved configuration bit, a payload longer than 65523 bytes): WellFormed says which terms keep them, and the
meanings raise the error the spec names for those that do not. -/
inductive Instr
  /-- SETKEY (R87, R202): load the key. -/
  | setkey (key : Bytes)
  /-- SETCFG (R88, R203): set the decoder checks. -/
  | setcfg (c : Byte)
  /-- DERIVE (R89, R116): the mask vector of a nonce under the current key. -/
  | derive (nonce : Nonce)
  /-- ENCODE (R90, R144): encode one frame, whose four fields are the operands. -/
  | encode (streamId seq : U32) (closing : Byte) (payload : Bytes)
  /-- DECODE (R91, R176): decode one record. -/
  | decode (record : Bytes)
deriving DecidableEq, Repr

end Sys2Proof
end

