-- ==== Sys2Proof/Decode.lean ====
section
/-! DEFINITION. Command decoding, total on any byte sequence (30_encoding.md R101), and the encoder beside it. The
decoder makes the checks that need only the message's shape, in the order of 60_exceptions.md R242: orders 1 to 4.
The checks of orders 5 to 11 stand in the meanings, where the spec's own pseudocode has them (log 12). -/

namespace Sys2Proof

/-- What a message decodes to (R101): a command, or the error of the first failing check. -/
inductive Decoded
  | instr (i : Instr)
  | error (e : Err)
deriving DecidableEq, Repr

/-- SETKEY (R87): every L from 1 on parses. -/
def decodeSetkey (cmd : Bytes) : Decoded := .instr (.setkey (keyOperand cmd))

/-- SETCFG (R88): L = 2. -/
def decodeSetcfg (cmd : Bytes) : Decoded :=
  if cmd.length ≠ 2 then .error .malformedCommand else .instr (.setcfg (cfgOperand cmd))

/-- DERIVE (R89): L = 4. -/
def decodeDerive (cmd : Bytes) : Decoded :=
  if cmd.length ≠ 4 then .error .malformedCommand else .instr (.derive (nonceOperand cmd))

/-- ENCODE (R90): L at least 10. -/
def decodeEncode (cmd : Bytes) : Decoded :=
  if cmd.length < 10 then .error .malformedCommand
  else .instr (.encode (streamIdOperand cmd) (seqOperand cmd) (closingOperand cmd) (payloadOperand cmd))

/-- DECODE (R91): every L from 1 on parses. -/
def decodeDecode (cmd : Bytes) : Decoded := .instr (.decode (recordOperand cmd))

/-- The opcodes (R86): 0x00 and 0x06 to 0xFF are illegal (R92). -/
def decodeOpcode (cmd : Bytes) : Decoded :=
  if opcodeOf cmd = 0x01#8 then decodeSetkey cmd
  else if opcodeOf cmd = 0x02#8 then decodeSetcfg cmd
  else if opcodeOf cmd = 0x03#8 then decodeDerive cmd
  else if opcodeOf cmd = 0x04#8 then decodeEncode cmd
  else if opcodeOf cmd = 0x05#8 then decodeDecode cmd
  else .error .illegalCommand

/-- Decode a command message (R200's dispatch with R101): length first, then the opcode, then the fixed length. -/
def decode (cmd : Bytes) : Decoded :=
  if Config.maxMsgBytes < cmd.length then .error .inputTooLarge
  else if cmd.length = 0 then .error .malformedCommand
  else decodeOpcode cmd

/-! ### The encoder -/

/-- The opcode of a command (R86). -/
def Instr.opcode : Instr → Byte
  | .setkey _ => 0x01#8
  | .setcfg _ => 0x02#8
  | .derive _ => 0x03#8
  | .encode _ _ _ _ => 0x04#8
  | .decode _ => 0x05#8

/-- The command message of a command (R87 to R91). -/
def encode (i : Instr) : Bytes :=
  i.opcode ::
    match i with
    | .setkey key => key
    | .setcfg c => [c]
    | .derive nonce => nonceBytes nonce
    | .encode streamId seq closing payload => bytes32 streamId ++ bytes32 seq ++ [closing] ++ payload
    | .decode record => record

/-! ### Words of the opcode table -/

/-- `n` bytes of a table word, the first byte its least significant eight bits. -/
def tableBytes : Nat → Nat → Bytes
  | 0, _ => []
  | n + 1, w => BitVec.ofNat 8 w :: tableBytes n (w / 256)

/-- The length of the shortest message of an opcode whose operands are all there: the fixed part of its format
(R86), and for DECODE the shortest byte sequence that has a record reading (R80). -/
def fixedLength (op : Byte) : Nat :=
  if op = 0x02#8 then 2
  else if op = 0x03#8 then 4
  else if op = 0x04#8 then 10
  else if op = 0x05#8 then 1 + Config.minRecordBytes
  else 1

/-- The message of a table word of `nbits` bits: its bytes, then zero bytes up to the fixed part of its opcode
(log 15). A table row numbers the opcode byte only. -/
def tableMessage (nbits w : Nat) : Bytes :=
  let given := tableBytes ((nbits + 7) / 8) w
  given ++ List.replicate (fixedLength (opcodeOf given) - given.length) 0#8

/-- The command the decoder reads from a table word, none where it answers an error. -/
def decodeTableWord (nbits w : Nat) : Option Instr :=
  match decode (tableMessage nbits w) with
  | .instr i => some i
  | .error _ => none

end Sys2Proof
end

