-- ==== Sys2Proof/Machine/State.lean ====
section
/-! DEFINITION. The state of the machine as plain data: the CFC's own elements (10_state.md R21, R38), and the
outside agents' side of its ports (10_state.md R33 to R35), which one step function needs in order to run them. -/

namespace Sys2Proof.Machine

/-- PHASE (R32). -/
inductive Phase
  /-- No command in flight; the command port may accept one. -/
  | idle
  /-- A command has been accepted into CUR and is being checked and computed. -/
  | exec
  /-- An ENCODE has passed its checks and holds for ENTROPY's answer. -/
  | waitEnt
  /-- The response is complete and held until HOST takes it. -/
  | respond
deriving DecidableEq, Repr

/-- What CUR holds (R40): the accepted command message, and for ENCODE also the parsed frame, from the moment its
checks have passed. -/
structure Cur where
  msg : Bytes
  frame : Option Frame
deriving DecidableEq, Repr

/-- ENTROPY's answer to a request (R35). -/
inductive EntropyAnswer
  | bytes (n : Nonce)
  | fail
deriving DecidableEq, Repr

/-- One agent's turn to move (R20, R270). -/
inductive Turn
  /-- The CFC takes its own step. -/
  | cfc
  /-- HOST has one more message to send; it waits behind those already waiting (R33). -/
  | hostSend (msg : Bytes)
  /-- HOST takes the response held at the response port (R34). -/
  | hostTake
  /-- ENTROPY answers request number `req` (R35). The number tells an answer to the outstanding request from one to
  a request that a reset withdrew (R273). -/
  | entropyAnswer (req : Nat) (a : EntropyAnswer)
  /-- RESET is asserted (R270). -/
  | reset
deriving DecidableEq, Repr

/-- Reasons a step can stop. The spec stops nowhere: errors are responses (R230), holds are holds (R280, R281). -/
inductive Fault
  /-- Raised by the CFC's step in PHASE = EXEC with CUR empty, a state R32 rules out and no run from reset reaches.
  Safe: the model stops where the spec gives no behaviour (log 10). -/
  | noCommand
deriving DecidableEq, Repr

/-- Reasons an instruction has no meaning. -/
inductive Refusal
  /-- Raised by an arm of exec whose instruction has no meaning yet. No arm raises it now. Safe. -/
  | notModelled (mnemonic : String)
deriving DecidableEq, Repr

/-- The state. The first eight fields are the CFC's (R21, R38); the last six are the outside
agents' side and what has passed the ports. -/
structure State where
  /-- KEY_BYTES (R22). -/
  keyBytes : Vector Byte Config.keyMaxBytes
  /-- KEY_LEN (R22), an integer from 0 to KEY_MAX_BYTES, held in 7 bits. -/
  keyLen : Fin (Config.keyMaxBytes + 1)
  /-- KEY_VALID (R23). -/
  keyValid : Bool
  /-- CFG (R27). -/
  cfg : Byte
  /-- PHASE (R32). -/
  phase : Phase
  /-- CUR (R40), none when empty. -/
  cur : Option Cur
  /-- ENT_PENDING (R40). -/
  entPending : Bool
  /-- The response port (R34, R38), none when no response is held. -/
  resp : Option Bytes
  /-- MODEL's own: the entropy port's answer, from lifting the hold until the ENCODE uses it (R32, R35; log 4). -/
  entAnswer : Option EntropyAnswer
  /-- MODEL's own: the number of entropy requests made, which is the newest request's number (R36, R273; log 5). -/
  entRequests : Nat
  /-- MODEL's own, HOST's side: the messages waiting at the command port, oldest first (R33; log 2). -/
  offers : List Bytes
  /-- MODEL's own, HOST's side: the responses HOST has taken, in order (R61, R288; log 3). -/
  taken : List Bytes
  /-- MODEL's own: the commands the CFC has accepted, in order, those a RESET discarded among them (R60, R288;
  log 22). -/
  accepted : List Bytes
  /-- MODEL's own: who moves next; when it is empty the CFC moves (R270, R285; log 1). -/
  turns : List Turn
deriving DecidableEq, Repr

/-- The reset state (R38). The MODEL's own fields start empty (logs 1 to 5, 22): no message has come yet. -/
def State.reset : State where
  keyBytes := Vector.replicate Config.keyMaxBytes 0x00#8
  keyLen := 0
  keyValid := false
  cfg := 0x00#8
  phase := .idle
  cur := none
  entPending := false
  resp := none
  entAnswer := none
  entRequests := 0
  offers := []
  taken := []
  accepted := []
  turns := []

end Sys2Proof.Machine
end

