-- ==== Sys2Proof/Machine/Ops.lean ====
section
/-! DEFINITION. The named operations over the state: reading the key and CFG, loading them, completing a command
(`respond`), raising an error (`raise`, the one exception this hardware has, 60_exceptions.md R230, R243), the
entropy request, and the moves of the agents at the ports (10_state.md R32 to R35, 70_reset_and_hazards.md R271 to
R273). -/

namespace Sys2Proof.Machine

/-! ### Reading registers -/

/-- The current key, `KEY_BYTES[0..KEY_LEN)` (R22). -/
def State.key (s : State) : Bytes := s.keyBytes.toList.take s.keyLen.val

/-- CFG.CHKPRE (R27). -/
def State.chkPre (s : State) : Bool := chkPreBit s.cfg

/-- CFG.CHKLEN (R27). -/
def State.chkLen (s : State) : Bool := chkLenBit s.cfg

/-- The message in CUR, decoded: the command port has no other fetch (R64). None when CUR is empty. -/
def State.fetch (s : State) : Option Decoded := s.cur.map fun c => decode c.msg

/-! ### Writing registers -/

/-- KEY_BYTES after loading `key`: the key, then 0x00 in every byte (R202). -/
def loadKeyBytes (key : Bytes) : Vector Byte Config.keyMaxBytes := Vector.ofFn fun i => byteAt key i.val

/-- SETKEY's writes, all together (R202): KEY_BYTES, KEY_LEN, KEY_VALID. Used for keys of at most KEY_MAX_BYTES. -/
def State.loadKey (key : Bytes) (s : State) : State :=
  { s with keyBytes := loadKeyBytes key, keyLen := Fin.ofNat (Config.keyMaxBytes + 1) key.length, keyValid := true }

/-- SETCFG's write (R203). -/
def State.loadCfg (c : Byte) (s : State) : State := { s with cfg := c }

/-! ### Completing a command -/

/-- `respond(r)` (R19): the response is formed and PHASE becomes RESPOND (R32, R200). An entropy answer the command
used is spent. CUR stays until the response is taken (R40). -/
def State.respond (r : Bytes) (s : State) : State :=
  { s with phase := .respond, resp := some r, entAnswer := none }

/-- A response of status OK with a result body (R96). -/
def State.respondOk (body : Bytes) (s : State) : State := s.respond (okCode :: body)

/-- `raise E` (R19, R230): the one-byte response `[code(E)]`, and no other state change. No mode, saved state, vector
or return belongs to it (R243, R244). -/
def State.raise (e : Err) (s : State) : State := s.respond [e.code]

/-- `entropy()` while no answer is there (R146): one request, ENT_PENDING = 1, PHASE = WAIT_ENT, and CUR keeps the
parsed frame (R40). -/
def State.requestEntropy (f : Frame) (s : State) : State :=
  { s with
    phase := .waitEnt
    entPending := true
    entRequests := s.entRequests + 1
    cur := s.cur.map fun c => { c with frame := some f } }

/-! ### Moves of the agents -/

/-- The command port accepts a message whole (R33): PHASE becomes EXEC and CUR holds it. The list of accepted
commands grows by it (log 22). -/
def State.accept (msg : Bytes) (s : State) : State :=
  { s with phase := .exec, cur := some ⟨msg, none⟩, accepted := s.accepted ++ [msg] }

/-- The messages still waiting at HOST's side. -/
def State.withOffers (msgs : List Bytes) (s : State) : State := { s with offers := msgs }

/-- The CFC's step in IDLE (R33, R253): it accepts the oldest waiting message, and does nothing when none waits. -/
def State.acceptNext (s : State) : State :=
  match s.offers with
  | [] => s
  | msg :: rest => (s.withOffers rest).accept msg

/-- HOST has one more message to send (R33, R289). -/
def State.hostSend (msg : Bytes) (s : State) : State := { s with offers := s.offers ++ [msg] }

/-- The response leaves the port and PHASE returns to IDLE; CUR is discarded (R34, R40). -/
def State.release (r : Bytes) (s : State) : State :=
  { s with phase := .idle, cur := none, resp := none, taken := s.taken ++ [r] }

/-- HOST takes the response held (R34). When none is held there is nothing to take (log 13). -/
def State.hostTake (s : State) : State :=
  match s.phase, s.resp with
  | .respond, some r => s.release r
  | _, _ => s

/-- An answer lifts the entropy hold (R32): WAIT_ENT to EXEC, ENT_PENDING back to 0 (R40). -/
def State.liftHold (a : EntropyAnswer) (s : State) : State :=
  { s with phase := .exec, entPending := false, entAnswer := some a }

/-- ENTROPY answers request `req` (R35). Only the answer to the outstanding request lifts the hold; an answer to a
withdrawn request, or one nobody asked for, is ignored (R273; log 13). -/
def State.entropyAnswer (req : Nat) (a : EntropyAnswer) (s : State) : State :=
  if s.phase = .waitEnt ∧ req = s.entRequests then s.liftHold a else s

/-- RESET (R271 to R273): every element of the CFC at its reset value; a command in flight, a held response and a
pending request are gone. What is HOST's and ENTROPY's own stays theirs (logs 2, 3, 5), and so does the record of what
was accepted (log 22). -/
def State.assertReset (s : State) : State :=
  { State.reset with
    entRequests := s.entRequests
    offers := s.offers
    taken := s.taken
    accepted := s.accepted
    turns := s.turns }

/-- The turns left after the current one. -/
def State.withTurns (ts : List Turn) (s : State) : State := { s with turns := ts }

end Sys2Proof.Machine
end

