-- ==== Sys2Proof/Machine/Control.lean ====
section
/-! DEFINITION. The control commands SETKEY and SETCFG (43_control.md R202, R203). -/

namespace Sys2Proof.Machine

/-- SETKEY (R202). KEY_TOO_LONG leaves the key register as it was (R238). -/
def execSetkey (key : Bytes) (s : State) : Host.Outcome State Fault Refusal :=
  if Config.keyMaxBytes < key.length then .next (s.raise .keyTooLong)
  else .next ((s.loadKey key).respondOk [])

/-- SETCFG (R203). A reserved bit set is MALFORMED_COMMAND and leaves CFG as it was (R93). The response carries CFG
after the write (R98). -/
def execSetcfg (c : Byte) (s : State) : Host.Outcome State Fault Refusal :=
  if cfgReserved c ≠ 0#6 then .next (s.raise .malformedCommand)
  else .next ((s.loadCfg c).respondOk [c])

end Sys2Proof.Machine
end

