-- ==== Sys2Proof/Machine/Sha1.lean ====
section
/-! DEFINITION. SHA-1 (40_mask_deriver.md R117 to R124). The spec supplies these rules from FIPS 180-4 and records
that a transcription of them agreed with a standard library (log 9). -/

namespace Sys2Proof

/-- `ROTL_n(x)` for a u32 (R17). -/
def rotl (n : Nat) (x : U32) : U32 := (x <<< n) ||| (x >>> (32 - n))

/-- The five words of a chaining value, and of the working variables a to e of the rounds (R119, R122). -/
structure Sha1State where
  h0 : U32
  h1 : U32
  h2 : U32
  h3 : U32
  h4 : U32
deriving DecidableEq, Repr

/-- The initial hash value (R119). -/
def sha1Init : Sha1State := ⟨0x67452301#32, 0xEFCDAB89#32, 0x98BADCFE#32, 0x10325476#32, 0xC3D2E1F0#32⟩

/-- The number of zero bytes of the padding, `(55 - len) mod 64` (R118). -/
def padZeros (len : Nat) : Nat := (119 - len % 64) % 64

/-- `pad(m)` (R118). -/
def pad (m : Bytes) : Bytes :=
  m ++ [0x80#8] ++ List.replicate (padZeros m.length) 0#8 ++ bytes64 (BitVec.ofNat 64 (8 * m.length))

/-- How many 64-byte blocks the padded message has (R117, R125). -/
def blockCount (m : Bytes) : Nat := (pad m).length / 64

/-- `W[t]` from the earlier words, the newest first (R120). -/
def nextWord (ws : List U32) : U32 :=
  rotl 1 (ws.getD 2 0#32 ^^^ ws.getD 7 0#32 ^^^ ws.getD 13 0#32 ^^^ ws.getD 15 0#32)

/-- `n` more words of the schedule, the newest first (R120). -/
def extendSchedule : Nat → List U32 → List U32
  | 0, ws => ws
  | n + 1, ws => extendSchedule n (nextWord ws :: ws)

/-- The first `n` big-endian words of a block (R120). -/
def blockWords : Nat → Bytes → List U32
  | 0, _ => []
  | n + 1, b => be32 b :: blockWords n (b.drop 4)

/-- The message schedule `W[0..80)` of a 64-byte block (R120). -/
def schedule (block : Bytes) : List U32 := (extendSchedule 64 (blockWords 16 block).reverse).reverse

/-- The round function `f_t` (R121): choose, parity, majority, parity. -/
def roundFn (t : Nat) (b c d : U32) : U32 :=
  if t < 20 then (b &&& c) ||| (~~~b &&& d)
  else if t < 40 then b ^^^ c ^^^ d
  else if t < 60 then (b &&& c) ||| (b &&& d) ||| (c &&& d)
  else b ^^^ c ^^^ d

/-- The round constant `KS_t` (R121). -/
def roundConst (t : Nat) : U32 :=
  if t < 20 then 0x5A827999#32
  else if t < 40 then 0x6ED9EBA1#32
  else if t < 60 then 0x8F1BBCDC#32
  else 0xCA62C1D6#32

/-- One round on the working variables (R122). -/
def round (t : Nat) (w : U32) (s : Sha1State) : Sha1State :=
  ⟨rotl 5 s.h0 + roundFn t s.h1 s.h2 s.h3 + s.h4 + roundConst t + w, s.h0, rotl 30 s.h1, s.h2, s.h3⟩

/-- The rounds from number `t` on, one for each word left of the schedule (R122). -/
def rounds : Nat → List U32 → Sha1State → Sha1State
  | _, [], s => s
  | t, w :: ws, s => rounds (t + 1) ws (round t w s)

/-- Word-wise addition modulo 2^32 of a chaining value and the rounds' result (R123). -/
def chainAdd (x y : Sha1State) : Sha1State :=
  ⟨x.h0 + y.h0, x.h1 + y.h1, x.h2 + y.h2, x.h3 + y.h3, x.h4 + y.h4⟩

/-- `compress` (R122, R123). -/
def compress (h : Sha1State) (block : Bytes) : Sha1State := chainAdd h (rounds 0 (schedule block) h)

/-- The final chaining value of a message (R117). -/
def sha1Chain (m : Bytes) : Sha1State :=
  (List.range (blockCount m)).foldl (fun h j => compress h (slice (pad m) (64 * j) (64 * j + 64))) sha1Init

/-- The digest bytes of a chaining value, big-endian word by word (R124). -/
def digestBytes (h : Sha1State) : Bytes :=
  bytes32 h.h0 ++ bytes32 h.h1 ++ bytes32 h.h2 ++ bytes32 h.h3 ++ bytes32 h.h4

/-- `SHA1(m)`, the 20-byte digest (R117). -/
def sha1 (m : Bytes) : Bytes := digestBytes (sha1Chain m)

end Sys2Proof
end

