-- ==== Sys2Proof/Machine/MaskDeriver.lean ====
section
/-! DEFINITION. The mask deriver (40_mask_deriver.md R110 to R115): from a key and a nonce, the 9-byte mask vector
and the three masks K1, K2, K3. It reads the key and the nonce alone (R110, R111). -/

namespace Sys2Proof

/-- The digest of GO_SUM_APPEND (R115, not normative): `key || nonce || SHA1([])`. -/
def goSum (key : Bytes) (nonce : Nonce) : Bytes := key ++ nonceBytes nonce ++ sha1 []

/-- `DIGEST(key, nonce)` under a derivation (R113, R114). -/
def digest (d : MaskDerivation) (key : Bytes) (nonce : Nonce) : Bytes :=
  match d with
  | .sha1KeyNonce => sha1 (key ++ nonceBytes nonce)
  | .goSumAppend => goSum key nonce

/-- The mask vector `D[0..9)` under a derivation (R84, R112). -/
def maskVectorOf (d : MaskDerivation) (key : Bytes) (nonce : Nonce) : Bytes := slice (digest d key nonce) 0 9

/-- The mask vector M under this spec's derivation (R84, R112). -/
def maskVector (key : Bytes) (nonce : Nonce) : Bytes := maskVectorOf Config.maskDerivation key nonce

/-- The three masks (R110). -/
structure Masks where
  k1 : U32
  k2 : U32
  k3 : Byte
deriving DecidableEq, Repr

/-- `derive_masks(key, nonce)` (R110, R112): the masks read from the mask vector (R84). -/
def deriveMasks (key : Bytes) (nonce : Nonce) : Masks :=
  let m := maskVector key nonce
  ⟨be32 (slice m 0 4), be32 (slice m 4 8), byteAt m 8⟩

end Sys2Proof
end

