-- ==== Sys2Proof/Machine/Codec.lean ====
section
/-! DEFINITION. The two deterministic cores: the frame encoder `enc` (41_encoder.md R140 to R143) and the frame
decoder `dec` with its preamble validator (42_decoder.md R170 to R175), over the wire record of 30_encoding.md
R71 to R81. -/

namespace Sys2Proof

/-! ### Frames and records -/

/-- The header image `HI(f)`, 9 bytes (R71). -/
def headerImage (f : Frame) : Bytes := bytes32 f.streamId ++ bytes32 f.seq ++ [f.closing]

/-- The frame image `FI(f)` (R71): ENCODE's body and DECODE's result. -/
def frameImage (f : Frame) : Bytes := headerImage f ++ f.payload

/-- The three constant bytes every record begins with (R73). -/
def preambleConst : Bytes := [0x17#8, 0x03#8, 0x03#8]

/-- A record's type and version bytes, `r[0..3)` (R80). -/
def recordConst (r : Bytes) : Bytes := slice r 0 3

/-- A record's declared length, `be16(r[3..5))` (R80). -/
def recordLength (r : Bytes) : Nat := (be16 (slice r 3 5)).toNat

/-- A record's masked header image, `r[5..14)` (R80). -/
def recordHeader (r : Bytes) : Bytes := slice r 5 14

/-- The nonce extractor `NONCE(r) = r[14..17)` (R171, R80). -/
def recordNonce (r : Bytes) : Nonce := nonceOf (slice r 14 17)

/-- A record's payload, `r[17..)` (R80). -/
def recordPayload (r : Bytes) : Bytes := r.drop 17

/-- A canonical record (R81). Only sequences of at least 17 bytes have a record reading (R80). -/
def canonicalRecord (r : Bytes) : Bool :=
  decide (Config.minRecordBytes ≤ r.length ∧ recordConst r = preambleConst ∧ recordLength r = r.length - 5)

/-! ### The encoder -/

/-- The preamble builder `PRE(n)` (R140). Applied to n at most 65523 only, so `12 + n` fits in 16 bits. -/
def preamble (n : Nat) : Bytes := preambleConst ++ bytes16 (BitVec.ofNat 16 (12 + n))

/-- The mask applier (R141): 9 independent XOR lanes. -/
def maskApply (header mask : Bytes) : Bytes := xorBytes header mask

/-- The payload muxer (R142): preamble, masked header bytes, nonce, payload. -/
def mux (pre masked : Bytes) (nonce : Nonce) (payload : Bytes) : Bytes := pre ++ masked ++ nonceBytes nonce ++ payload

/-- The encoder core `enc(k, nonce, f)` (R143). -/
def enc (key : Bytes) (nonce : Nonce) (f : Frame) : Bytes :=
  mux (preamble f.payload.length) (maskApply (headerImage f) (maskVector key nonce)) nonce f.payload

/-! ### The decoder -/

/-- The preamble validator `VALIDATE(r)` (R170), none for OK: the length test, then each strict check whose CFG bit
is set (R179, R180), in that order (R177). -/
def validate (chkPre chkLen : Bool) (r : Bytes) : Option Err :=
  if r.length < Config.minRecordBytes then some .tooShort
  else if chkPre = true ∧ recordConst r ≠ preambleConst then some .badPreamble
  else if chkLen = true ∧ recordLength r ≠ r.length - 5 then some .lengthMismatch
  else none

/-- The unmasker `UNMASK(r, M)` (R173). -/
def unmask (r mask : Bytes) : Bytes := xorBytes (recordHeader r) mask

/-- The frame reconstructor `RECON(H, r)` (R174): the payload is every byte after offset 16. -/
def recon (h r : Bytes) : Frame := ⟨be32 (slice h 0 4), be32 (slice h 4 8), byteAt h 8, recordPayload r⟩

/-- The decoder core `dec(k, r)` (R175). It reads no CFG and ignores `r[0..5)`. -/
def dec (key r : Bytes) : Frame := recon (unmask r (maskVector key (recordNonce r))) r

end Sys2Proof
end

