-- ==== Sys2Proof/Machine/Frames.lean ====
section
/-! DEFINITION. The commands on frames: DERIVE (40_mask_deriver.md R116), ENCODE (41_encoder.md R144) and DECODE
(42_decoder.md R176). -/

namespace Sys2Proof.Machine

/-- DERIVE (R116): the mask vector of the nonce under the current key. No state is written. -/
def execDerive (nonce : Nonce) (s : State) : Host.Outcome State Fault Refusal :=
  if s.keyValid = false then .next (s.raise .keyNotLoaded)
  else .next (s.respondOk (maskVector s.key nonce))

/-- ENCODE's `a <- entropy()` and what follows it (R144): with no answer yet, the request and the hold (R146); FAIL
is ENTROPY_UNAVAILABLE (R147); three bytes are the nonce. -/
def encodeWithEntropy (f : Frame) (s : State) : State :=
  match s.entAnswer with
  | none => s.requestEntropy f
  | some .fail => s.raise .entropyUnavailable
  | some (.bytes nonce) => s.respondOk (enc s.key nonce f)

/-- ENCODE (R144): its checks come before the draw (R145). When the answer has lifted the hold, EXEC runs this again
from the top (log 4): the checks read only the message and KEY_VALID, which the hold cannot change. -/
def execEncode (streamId seq : U32) (closing : Byte) (payload : Bytes) (s : State) :
    Host.Outcome State Fault Refusal :=
  if s.keyValid = false then .next (s.raise .keyNotLoaded)
  else if Config.maxPayloadBytes < payload.length then .next (s.raise .payloadTooLarge)
  else .next (encodeWithEntropy ⟨streamId, seq, closing, payload⟩ s)

/-- DECODE (R176): KEY_VALID first, then the validator (R177), then the decoder core. No state is written. -/
def execDecode (record : Bytes) (s : State) : Host.Outcome State Fault Refusal :=
  if s.keyValid = false then .next (s.raise .keyNotLoaded)
  else
    match validate s.chkPre s.chkLen record with
    | some e => .next (s.raise e)
    | none => .next (s.respondOk (frameImage (dec s.key record)))

end Sys2Proof.Machine
end

