-- ==== Sys2Proof/Machine/Dispatch.lean ====
section
/-! DEFINITION. One arm per command (43_control.md R200). -/

namespace Sys2Proof.Machine

def exec (i : Instr) (s : State) : Host.Outcome State Fault Refusal :=
  match i with
  | .setkey key => Sys2Proof.Machine.execSetkey key s
  | .setcfg c => Sys2Proof.Machine.execSetcfg c s
  | .derive nonce => Sys2Proof.Machine.execDerive nonce s
  | .encode streamId seq closing payload => Sys2Proof.Machine.execEncode streamId seq closing payload s
  | .decode record => Sys2Proof.Machine.execDecode record s

end Sys2Proof.Machine
end

