-- ==== Sys2Proof/Machine/Step.lean ====
section
/-! DEFINITION. One step of the system: the agent whose turn it is moves (10_state.md R20, 70_reset_and_hazards.md
R285). In EXEC the CFC decodes the message in CUR and runs the command (43_control.md R200). -/

namespace Sys2Proof.Machine

/-- EXEC (R200): the command CUR decodes to is executed; a message that is no command raises its error (R101). -/
def execStep (s : State) : Host.Outcome State Fault Refusal :=
  match s.fetch with
  | none => .fault .noCommand
  | some (.error e) => .next (s.raise e)
  | some (.instr i) => exec i s

/-- The CFC's own step. In WAIT_ENT and RESPOND it holds, and the state stays as it is (R280, R281; log 7). -/
def cfcStep (s : State) : Host.Outcome State Fault Refusal :=
  match s.phase with
  | .idle => .next s.acceptNext
  | .exec => execStep s
  | .waitEnt => .next s
  | .respond => .next s

/-- One step. -/
def step (s : State) : Host.Outcome State Fault Refusal :=
  match s.turns with
  | [] => cfcStep s
  | .cfc :: ts => cfcStep (s.withTurns ts)
  | .hostSend msg :: ts => .next ((s.withTurns ts).hostSend msg)
  | .hostTake :: ts => .next (s.withTurns ts).hostTake
  | .entropyAnswer req a :: ts => .next ((s.withTurns ts).entropyAnswer req a)
  | .reset :: ts => .next (s.withTurns ts).assertReset

/-- `s` with the message of a table word accepted (R33): PHASE = EXEC, CUR holds it, nothing of an earlier command is
left at the ports, and the next turn is the CFC's, so that the next step executes it (log 14). -/
def State.withFetchWord (s : State) (nbits w : Nat) : State :=
  { s.accept (tableMessage nbits w) with
    entPending := false
    resp := none
    entAnswer := none
    turns := match s.turns with
      | [] => []
      | ts => .cfc :: ts }

end Sys2Proof.Machine
end

