-- ==== Sys2Proof/Machine/Assembler.lean ====
section
/-! DEFINITION. The assembler notation (30_encoding.md R99, R100): one command a line, a mnemonic and its operands
separated by commas, to the command message it stands for. It is notation of the host's side and no part of the
machine's step. Text is a list of characters. -/

namespace Sys2Proof

/-- A line, read (R99, R100). Immediates are numbers whose range `assemble` checks. -/
inductive AsmLine
  | setkey (key : Bytes)
  | setcfg (imm8 : Nat)
  | derive (imm24 : Nat)
  | encode (streamId seq closing : Nat) (payload : Bytes)
  | decode (record : Bytes)
  /-- A raw message, legal or not. -/
  | msg (message : Bytes)
  /-- Pseudo-instruction (R100). -/
  | lenient
  /-- Pseudo-instruction (R100). -/
  | strict
deriving DecidableEq, Repr

/-- The message of a line, none where an immediate does not fit (R99: an assembler error, no command). -/
def assemble : AsmLine → Option Bytes
  | .setkey key => some (0x01#8 :: key)
  | .setcfg imm8 => if imm8 < 2 ^ 8 then some [0x02#8, BitVec.ofNat 8 imm8] else none
  | .derive imm24 =>
    if imm24 < 2 ^ 24 then
      some [0x03#8, BitVec.ofNat 8 (imm24 / 2 ^ 16), BitVec.ofNat 8 (imm24 / 2 ^ 8), BitVec.ofNat 8 imm24]
    else none
  | .encode streamId seq closing payload =>
    if streamId < 2 ^ 32 ∧ seq < 2 ^ 32 ∧ closing < 2 ^ 8 then
      some (0x04#8 :: (bytes32 (BitVec.ofNat 32 streamId) ++ bytes32 (BitVec.ofNat 32 seq)
        ++ [BitVec.ofNat 8 closing] ++ payload))
    else none
  | .decode record => some (0x05#8 :: record)
  | .msg message => some message
  | .lenient => some [0x02#8, 0x00#8]
  | .strict => some [0x02#8, 0x03#8]

/-! ### Operands -/

/-- The value of a hex digit, in either case (log 18). -/
def hexDigit (c : Char) : Option Nat :=
  let n := c.toNat
  if 48 ≤ n ∧ n ≤ 57 then some (n - 48)
  else if 97 ≤ n ∧ n ≤ 102 then some (n - 87)
  else if 65 ≤ n ∧ n ≤ 70 then some (n - 55)
  else none

/-- The hex digits after a first one; an underscore between two digits is ignored (R99; log 18). -/
def moreHexDigits : List Char → Option (List Nat)
  | [] => some []
  | '_' :: c :: cs => do
    let d ← hexDigit c
    let ds ← moreHexDigits cs
    pure (d :: ds)
  | c :: cs => do
    let d ← hexDigit c
    let ds ← moreHexDigits cs
    pure (d :: ds)

/-- The hex digits of a hex string. -/
def hexDigits : List Char → Option (List Nat)
  | [] => some []
  | c :: cs => do
    let d ← hexDigit c
    let ds ← moreHexDigits cs
    pure (d :: ds)

/-- Two digits a byte (R99: an even number of digits). -/
def pairDigits : List Nat → Option Bytes
  | [] => some []
  | [_] => none
  | hi :: lo :: ds => (pairDigits ds).map (BitVec.ofNat 8 (16 * hi + lo) :: ·)

/-- The UTF-8 bytes of a character (R82, R99). -/
def utf8Bytes (c : Char) : Bytes := (String.utf8EncodeChar c).map fun u => BitVec.ofNat 8 u.toNat

/-- The UTF-8 bytes of a quoted string, after its opening quote; nothing may follow the closing one (log 18). -/
def quotedBytes : List Char → Option Bytes
  | [] => none
  | ['"'] => some []
  | '"' :: _ => none
  | c :: cs => (quotedBytes cs).map (utf8Bytes c ++ ·)

/-- A bytes operand: a hex string, a quoted string, or `[]` (R99). -/
def bytesOperand : List Char → Option Bytes
  | '0' :: 'x' :: ds => (hexDigits ds).bind pairDigits
  | '"' :: cs => quotedBytes cs
  | ['[', ']'] => some []
  | _ => none

/-- The number a digit list stands for in a base. -/
def numberOf (base : Nat) (ds : List Nat) : Nat := ds.foldl (fun n d => base * n + d) 0

/-- An immediate operand: decimal, or hex after `0x` (R99), with no separators (log 18). -/
def immOperand : List Char → Option Nat
  | '0' :: 'x' :: d :: ds => ((d :: ds).mapM hexDigit).map (numberOf 16)
  | d :: ds => ((d :: ds).mapM fun c => (hexDigit c).filter (· < 10)).map (numberOf 10)
  | [] => none

/-! ### Lines -/

/-- A blank (log 18). -/
def isBlank (c : Char) : Bool := c = ' ' || c = '\t' || c = '\r'

/-- A text without the blanks at its two ends. -/
def trim (cs : List Char) : List Char := ((cs.dropWhile isBlank).reverse.dropWhile isBlank).reverse

/-- A text without its comment: from the first `;` outside quotes (R99; log 18). -/
def stripComment (inQuotes : Bool) : List Char → List Char
  | [] => []
  | c :: cs =>
    if c = ';' && !inQuotes then []
    else c :: stripComment (if c = '"' then !inQuotes else inQuotes) cs

/-- A text cut at the commas outside quotes (log 18). -/
def splitCommas (inQuotes : Bool) : List Char → List (List Char)
  | [] => [[]]
  | c :: cs =>
    let rest := splitCommas (if c = '"' then !inQuotes else inQuotes) cs
    if c = ',' && !inQuotes then [] :: rest
    else
      match rest with
      | [] => [[c]]
      | r :: rs => (c :: r) :: rs

/-- A text without comment: the mnemonic and the operands. -/
def splitLine (cs : List Char) : List Char × List (List Char) :=
  let body := trim cs
  let operands := trim (body.dropWhile fun c => !isBlank c)
  (body.takeWhile fun c => !isBlank c, if operands.isEmpty then [] else (splitCommas false operands).map trim)

/-- The line a mnemonic, in capitals (log 18), and its operands stand for (R99, R100). -/
def parseCommand (mnemonic : List Char) (operands : List (List Char)) : Option AsmLine :=
  match operands with
  | [] =>
    if mnemonic = "LENIENT".toList then some .lenient
    else if mnemonic = "STRICT".toList then some .strict
    else none
  | [x] =>
    if mnemonic = "SETKEY".toList then (bytesOperand x).map .setkey
    else if mnemonic = "SETCFG".toList then (immOperand x).map .setcfg
    else if mnemonic = "DERIVE".toList then (immOperand x).map .derive
    else if mnemonic = "DECODE".toList then (bytesOperand x).map .decode
    else if mnemonic = "MSG".toList then (bytesOperand x).map .msg
    else none
  | [x, y, z, p] =>
    if mnemonic = "ENCODE".toList then do
      let streamId ← immOperand x
      let seq ← immOperand y
      let closing ← immOperand z
      let payload ← bytesOperand p
      pure (.encode streamId seq closing payload)
    else none
  | _ => none

/-- The messages of a line: one, or no message for a line that is blank or a comment. An assembler error is none at the
outside: an immediate that does not fit (R99), and, as the model's choice (log 18), every line that is not of R99's or
R100's form. -/
def assembleLine (cs : List Char) : Option (List Bytes) :=
  let parts := splitLine (stripComment false cs)
  if parts.1.isEmpty then some []
  else ((parseCommand parts.1 parts.2).bind assemble).map ([·])

/-- The messages of a list of lines, in order. R99 says of an assembler error only that its line produces no command.
That an error in one line leaves the whole list without messages is the model's choice (DESIGN CHOICE, log 18). -/
def assembleLines : List (List Char) → Option (List Bytes)
  | [] => some []
  | l :: ls => do
    let first ← assembleLine l
    let rest ← assembleLines ls
    pure (first ++ rest)

end Sys2Proof
end

