-- ==== Sys2Proof/Safety.lean ====
section
/-! DEFINITION. The terms claims are made in: the invariant of the state, what a legal response is (30_encoding.md
R96, R97), the end of a run and its observation (70_reset_and_hazards.md R288), the precedence table of errors
(60_exceptions.md R242), and a reference reading of one whole command (43_control.md R200 with the commands' own
pseudocode), written over messages and field by field, without the decoder, the meanings or the codec's units. -/

namespace Sys2Proof.Machine

/-! ### The invariant -/

/-- What the spec says of every state between two steps: R22 (bytes past KEY_LEN are zero), R23 (no key is loaded
while KEY_VALID is 0), R27 (CFG's reserved bits read as 0), R32 and R40 (PHASE, CUR, ENT_PENDING and the ports agree;
the frame of a waiting ENCODE is the one in its message, and its checks have passed). -/
structure State.Inv (s : State) : Prop where
  cfg_reserved_zero : cfgReserved s.cfg = 0#6
  key_padded : ∀ i : Fin Config.keyMaxBytes, s.keyLen.val ≤ i.val → s.keyBytes[i] = 0x00#8
  no_key_while_invalid : s.keyValid = false → s.keyLen = 0
  pending_iff_waiting : s.entPending = true ↔ s.phase = .waitEnt
  cur_empty_iff_idle : s.cur = none ↔ s.phase = .idle
  resp_empty_iff_not_respond : s.resp = none ↔ s.phase ≠ .respond
  answer_only_in_exec : s.entAnswer ≠ none → s.phase = .exec
  exec_frame_iff_answered : ∀ c, s.phase = .exec → s.cur = some c → (c.frame = none ↔ s.entAnswer = none)
  waiting_has_frame : ∀ c, s.phase = .waitEnt → s.cur = some c → c.frame ≠ none
  frame_from_message : ∀ c f, s.cur = some c → c.frame = some f →
    decode c.msg = .instr (.encode f.streamId f.seq f.closing f.payload)
      ∧ s.keyValid = true ∧ f.payload.length ≤ Config.maxPayloadBytes

/-! ### Responses -/

/-- A legal response (R96, R97): a status byte from 0x00 to 0x0A, alone when it is not OK. -/
def legalResponse (r : Bytes) : Bool :=
  match r with
  | [] => false
  | status :: body => decide (status.toNat ≤ 0x0A ∧ (status ≠ okCode → body = []))

/-- Every response held or taken is legal. -/
def State.ResponsesLegal (s : State) : Prop :=
  (∀ r, s.resp = some r → legalResponse r = true) ∧ ∀ r ∈ s.taken, legalResponse r = true

/-- How many commands have been accepted and not yet answered to HOST: 1 while one is in flight (R279). -/
def State.inFlight (s : State) : Nat := if s.phase = .idle then 0 else 1

/-! ### Runs -/

/-- A run of the commands `cmds`, begun in `start` (State.reset, for R288's own runs), is over (R288): the CFC has
accepted all of them, HOST has taken as many responses, PHASE is IDLE and no request is pending. A command that is not
yet accepted, wherever it waits, leaves the run open, and so does one that a RESET discarded, because its response is
never taken (R272). With further commands accepted it is a longer run (log 22). -/
def State.RunOver (s start : State) (cmds : List Bytes) : Prop :=
  s.accepted = start.accepted ++ cmds ∧ s.taken.length = start.taken.length + cmds.length ∧ s.phase = .idle ∧
    s.entPending = false

/-- The registers as commands see them. -/
structure Regs where
  keyValid : Bool
  key : Bytes
  cfg : Byte
deriving DecidableEq, Repr

/-- The registers of a state. -/
def State.regs (s : State) : Regs := ⟨s.keyValid, s.key, s.cfg⟩

/-- The observation of a run (R288): the responses, and KEY_BYTES, KEY_LEN, KEY_VALID and CFG at its end. -/
def State.observation (s : State) : List Bytes × Vector Byte Config.keyMaxBytes × Nat × Bool × Byte :=
  (s.taken, s.keyBytes, s.keyLen.val, s.keyValid, s.cfg)

/-! ### The precedence table (R242) -/

/-- A row of R242's table: its order, the error, and its test on the registers, ENTROPY's answer and the message. -/
structure ErrorRow where
  order : Nat
  err : Err
  test : Regs → EntropyAnswer → Bytes → Bool

/-- R242's table, in its order. -/
def errorTable : List ErrorRow :=
  [ ⟨1, .inputTooLarge, fun _ _ cmd => decide (Config.maxMsgBytes < cmd.length)⟩,
    ⟨2, .malformedCommand, fun _ _ cmd => decide (cmd.length = 0)⟩,
    ⟨3, .illegalCommand, fun _ _ cmd => decide (opcodeOf cmd ∉ [0x01#8, 0x02#8, 0x03#8, 0x04#8, 0x05#8])⟩,
    ⟨4, .malformedCommand, fun _ _ cmd => decide ((opcodeOf cmd = 0x02#8 ∧ cmd.length ≠ 2)
      ∨ (opcodeOf cmd = 0x03#8 ∧ cmd.length ≠ 4) ∨ (opcodeOf cmd = 0x04#8 ∧ cmd.length < 10))⟩,
    ⟨5, .malformedCommand, fun _ _ cmd => decide (opcodeOf cmd = 0x02#8 ∧ cfgReserved (byteAt cmd 1) ≠ 0#6)⟩,
    ⟨6, .keyTooLong, fun _ _ cmd => decide (opcodeOf cmd = 0x01#8 ∧ Config.keyMaxBytes < cmd.length - 1)⟩,
    ⟨7, .keyNotLoaded, fun r _ cmd => decide (opcodeOf cmd ∈ [0x03#8, 0x04#8, 0x05#8] ∧ r.keyValid = false)⟩,
    ⟨8, .payloadTooLarge, fun _ _ cmd => decide (opcodeOf cmd = 0x04#8 ∧ Config.maxPayloadBytes < cmd.length - 10)⟩,
    ⟨8, .tooShort, fun _ _ cmd => decide (opcodeOf cmd = 0x05#8 ∧ cmd.length - 1 < Config.minRecordBytes)⟩,
    ⟨9, .badPreamble, fun r _ cmd => decide (opcodeOf cmd = 0x05#8 ∧ chkPreBit r.cfg = true
      ∧ slice (cmd.drop 1) 0 3 ≠ [0x17#8, 0x03#8, 0x03#8])⟩,
    ⟨10, .lengthMismatch, fun r _ cmd => decide (opcodeOf cmd = 0x05#8 ∧ chkLenBit r.cfg = true
      ∧ (be16 (slice (cmd.drop 1) 3 5)).toNat ≠ cmd.length - 6)⟩,
    ⟨11, .entropyUnavailable, fun _ a cmd => decide (opcodeOf cmd = 0x04#8 ∧ a = .fail)⟩ ]

/-- The error raised (R242): the first row whose test holds. -/
def firstError (r : Regs) (a : EntropyAnswer) (cmd : Bytes) : Option Err :=
  (errorTable.find? fun row => row.test r a cmd).map (·.err)

/-- The command asks ENTROPY for a nonce (R36, R145): an ENCODE that no row before the last rejects. -/
def asksEntropy (r : Regs) (cmd : Bytes) : Bool :=
  decide (opcodeOf cmd = 0x04#8 ∧ firstError r (.bytes ⟨0#8, 0#8, 0#8⟩) cmd = none)

/-! ### The reference reading of a command -/

/-- The record of ENCODE written as R72's table has it, field by field, for payload bytes `cmd[10..L)`. -/
def referenceRecord (key : Bytes) (n : Nonce) (cmd : Bytes) : Bytes :=
  let k := deriveMasks key n
  [0x17#8, 0x03#8, 0x03#8] ++ bytes16 (BitVec.ofNat 16 (12 + (cmd.length - 10)))
    ++ bytes32 (be32 (slice cmd 1 5) ^^^ k.k1) ++ bytes32 (be32 (slice cmd 5 9) ^^^ k.k2)
    ++ [byteAt cmd 9 ^^^ k.k3] ++ [n.n0, n.n1, n.n2] ++ cmd.drop 10

/-- DECODE's result written as the source's steps have it, field by field (R173, R174), for record bytes `r`. -/
def referenceFrameImage (key r : Bytes) : Bytes :=
  let k := deriveMasks key ⟨byteAt r 14, byteAt r 15, byteAt r 16⟩
  bytes32 (be32 (slice r 5 9) ^^^ k.k1) ++ bytes32 (be32 (slice r 9 13) ^^^ k.k2) ++ [byteAt r 13 ^^^ k.k3] ++ r.drop 17

/-- One whole command (R200 with R202, R203, R116, R144, R176): the response and the registers after it, from the
registers, ENTROPY's answer (read by an ENCODE that asks for one) and the message. -/
def reference (r : Regs) (a : EntropyAnswer) (cmd : Bytes) : Bytes × Regs :=
  match firstError r a cmd with
  | some e => ([e.code], r)
  | none =>
    if opcodeOf cmd = 0x01#8 then ([okCode], ⟨true, cmd.drop 1, r.cfg⟩)
    else if opcodeOf cmd = 0x02#8 then ([okCode, byteAt cmd 1], ⟨r.keyValid, r.key, byteAt cmd 1⟩)
    else if opcodeOf cmd = 0x03#8 then
      let k := deriveMasks r.key ⟨byteAt cmd 1, byteAt cmd 2, byteAt cmd 3⟩
      (okCode :: (bytes32 k.k1 ++ bytes32 k.k2 ++ [k.k3]), r)
    else if opcodeOf cmd = 0x04#8 then
      match a with
      | .bytes n => (okCode :: referenceRecord r.key n cmd, r)
      | .fail => ([Err.entropyUnavailable.code], r)
    else (okCode :: referenceFrameImage r.key (cmd.drop 1), r)

/-- A sequence of commands, each with the answer ENTROPY has for it: the responses in order, and the registers after
the last (R60, R61). -/
def referenceRun : Regs → List (Bytes × EntropyAnswer) → List Bytes × Regs
  | r, [] => ([], r)
  | r, (cmd, a) :: rest =>
    let one := reference r a cmd
    let more := referenceRun one.2 rest
    (one.1 :: more.1, more.2)

/-- The turns in which a fair HOST and a fair ENTROPY (R287) carry a sequence of commands through, from `n` requests
made before it: accept, execute, take; and for a command that asks for a nonce an answer and a second EXEC. -/
def fairTurns : Nat → Regs → List (Bytes × EntropyAnswer) → List Turn
  | _, _, [] => []
  | n, r, (cmd, a) :: rest =>
    let next := (reference r a cmd).2
    if asksEntropy r cmd then
      .cfc :: .cfc :: .entropyAnswer (n + 1) a :: .cfc :: .hostTake :: fairTurns (n + 1) next rest
    else .cfc :: .cfc :: .hostTake :: fairTurns n next rest

end Sys2Proof.Machine
end

