-- ==== Sys2Proof/WellFormed.lean ====
section
/-! DEFINITION. Which commands keep the limits of their formats: the "format" column of spec/opcode_table.json with
30_encoding.md R70, R86 to R91 and R93. The meanings do not rely on it: a command that breaks a limit gets the
error the spec names. -/

namespace Sys2Proof

/-- A well-formed command. ENCODE's bound is that of the table's row and of a frame (R70), 65523 payload bytes
(log 11). -/
def Instr.wellFormed : Instr → Bool
  | .setkey key => decide (key.length ≤ Config.keyMaxBytes)
  | .setcfg c => decide (cfgReserved c = 0#6)
  | .derive _ => true
  | .encode _ _ _ payload => decide (payload.length ≤ Config.maxPayloadBytes)
  | .decode record => decide (1 + record.length ≤ Config.maxMsgBytes)

/-- The proposition that a command is well formed; decidable, since it is a Boolean equation. -/
abbrev Instr.WellFormed (i : Instr) : Prop := i.wellFormed = true

end Sys2Proof
end

