-- ==== Sys2Proof/Certificates/Slice0/Obligations.lean ====
section
/-! DEFINITION. The statements for the provers. Each docstring says which rule of spec/ it formalises, or that it
is derived from several. -/

open Sys2Proof Sys2Proof.Machine

/-! ### Encoding and decoding of commands -/

/-- R86 to R91, R102: no bit of a command's encoding is dropped. -/
def Obligations.DecodeOfEncodeIsTheCommand : Prop :=
  ∀ i : Instr, i.WellFormed → decode (encode i) = .instr i

/-- R86 to R91, R102: a message that decodes to a command is that command's only message. -/
def Obligations.EncodeOfDecodeIsTheMessage : Prop :=
  ∀ (cmd : Bytes) (i : Instr), decode cmd = .instr i → encode i = cmd

/-- Messages written out from R87 to R91 decode to the commands they stand for (tests hold the same words). -/
def Obligations.WrittenMessagesDecode : Prop :=
  decode [0x01#8, 0xde#8, 0xad#8, 0xbe#8, 0xef#8] = .instr (.setkey [0xde#8, 0xad#8, 0xbe#8, 0xef#8]) ∧
  decode [0x02#8, 0x03#8] = .instr (.setcfg 0x03#8) ∧
  decode [0x03#8, 0x01#8, 0x02#8, 0x03#8] = .instr (.derive ⟨0x01#8, 0x02#8, 0x03#8⟩) ∧
  decode [0x04#8, 0x12#8, 0x34#8, 0x56#8, 0x78#8, 0x9a#8, 0xbc#8, 0xde#8, 0xf0#8, 0x80#8, 0x00#8] =
    .instr (.encode 0x12345678#32 0x9abcdef0#32 0x80#8 [0x00#8]) ∧
  decode [0x05#8, 0x17#8, 0x03#8] = .instr (.decode [0x17#8, 0x03#8])

/-- Which messages the decoder rejects, and the error each gets: orders 1 to 4 of R242. That the decoder makes those
checks and no other is the model's choice (log 12): by R101 a SETCFG with a reserved bit decodes to MALFORMED_COMMAND
too, and in the model the meaning of SETCFG raises it. -/
def Obligations.ShapeErrorsOfMessages : Prop :=
  ∀ cmd : Bytes,
    (decode cmd = .error .inputTooLarge ↔ Config.maxMsgBytes < cmd.length) ∧
    (decode cmd = .error .illegalCommand ↔ 1 ≤ cmd.length ∧ cmd.length ≤ Config.maxMsgBytes ∧
      opcodeOf cmd ∉ [0x01#8, 0x02#8, 0x03#8, 0x04#8, 0x05#8]) ∧
    (decode cmd = .error .malformedCommand ↔ cmd.length = 0 ∨ (cmd.length ≤ Config.maxMsgBytes ∧
      ((opcodeOf cmd = 0x02#8 ∧ cmd.length ≠ 2) ∨ (opcodeOf cmd = 0x03#8 ∧ cmd.length ≠ 4) ∨
       (opcodeOf cmd = 0x04#8 ∧ cmd.length < 10)))) ∧
    (∀ e, decode cmd = .error e → e = .inputTooLarge ∨ e = .illegalCommand ∨ e = .malformedCommand) ∧
    Err.illegalCommand.code = 0x08#8 ∧ Err.malformedCommand.code = 0x09#8 ∧ Err.inputTooLarge.code = 0x0A#8

/-- R239, R241: dispatch answers a message over MAX_MSG_BYTES with INPUT_TOO_LARGE whatever its opcode, and any other
message whose opcode is not 0x01 to 0x05 with ILLEGAL_COMMAND; nothing else changes. Turns and the place
of ENTROPY's answer in State are the model's choice (logs 1, 4). -/
def Obligations.DispatchRejectsLongAndIllegalMessages : Prop :=
  ∀ (s s' : State) (c : Cur), s.phase = .exec → s.cur = some c →
    (s.turns = [] ∧ s' = s) ∨ (∃ ts, s.turns = .cfc :: ts ∧ s' = { s with turns := ts }) →
    (65541 < c.msg.length →
      step s = .next { s' with phase := .respond, resp := some [0x0A#8], entAnswer := none }) ∧
    (1 ≤ c.msg.length → c.msg.length ≤ 65541 → opcodeOf c.msg ∉ [0x01#8, 0x02#8, 0x03#8, 0x04#8, 0x05#8] →
      step s = .next { s' with phase := .respond, resp := some [0x08#8], entAnswer := none })

/-- R99, R100: an assembled line decodes to the command it names, each immediate in its range; LENIENT and STRICT
expand to SETCFG 0x00 and SETCFG 0x03; an immediate that does not fit gives no command. That a SETCFG with a reserved
bit still decodes to a command, whose meaning then raises MALFORMED_COMMAND, is the model's choice (log 12). -/
def Obligations.AssembledLinesDecode : Prop :=
  (∀ key : Bytes, key.length ≤ Config.keyMaxBytes →
    (assemble (.setkey key)).map decode = some (.instr (.setkey key))) ∧
  (∀ c : Nat, (assemble (.setcfg c)).map decode =
    if c < 256 then some (.instr (.setcfg (BitVec.ofNat 8 c))) else none) ∧
  (∀ n0 n1 n2 : Byte, (assemble (.derive (n0.toNat * 65536 + n1.toNat * 256 + n2.toNat))).map decode =
    some (.instr (.derive ⟨n0, n1, n2⟩))) ∧
  (∀ n : Nat, 2 ^ 24 ≤ n → assemble (.derive n) = none) ∧
  (∀ (a b c : Nat) (p : Bytes), p.length ≤ Config.maxPayloadBytes → (assemble (.encode a b c p)).map decode =
    if a < 2 ^ 32 ∧ b < 2 ^ 32 ∧ c < 2 ^ 8 then
      some (.instr (.encode (BitVec.ofNat 32 a) (BitVec.ofNat 32 b) (BitVec.ofNat 8 c) p))
    else none) ∧
  (∀ r : Bytes, 1 + r.length ≤ Config.maxMsgBytes →
    (assemble (.decode r)).map decode = some (.instr (.decode r))) ∧
  (∀ m : Bytes, assemble (.msg m) = some m) ∧
  assemble .lenient = assemble (.setcfg 0) ∧ assemble .strict = assemble (.setcfg 3)

/-! ### The step and the commands -/

/-- R200: in EXEC, on the CFC's turn, the step is exec of the command CUR decodes to, on the state without that turn;
a message that is no command raises its error. That whose turn it is stands in `turns` is the model's choice (log 1).
The place of ENTROPY's answer in State is the model's choice (log 4). -/
def Obligations.StepRunsTheDecodedCommand : Prop :=
  ∀ (s s' : State) (c : Cur), s.phase = .exec → s.cur = some c →
    (s.turns = [] ∧ s' = s) ∨ (∃ ts, s.turns = .cfc :: ts ∧ s' = { s with turns := ts }) →
    (∀ i, decode c.msg = .instr i → step s = exec i s') ∧
    (∀ e, decode c.msg = .error e →
      step s = .next { s' with phase := .respond, resp := some [e.code], entAnswer := none })

/-- R202: SETKEY of a key that fits loads it whole, zero fills the rest, and completes; nothing else changes. The
place of ENTROPY's answer in State is the model's choice (log 4). -/
def Obligations.SetkeyLoadsTheKey : Prop :=
  ∀ (key : Bytes) (s : State), key.length ≤ Config.keyMaxBytes →
    ∃ t, exec (.setkey key) s = .next t ∧ t.key = key ∧ t.keyLen.val = key.length ∧
      (∀ i : Fin Config.keyMaxBytes, t.keyBytes[i] = byteAt key i.val) ∧
      t = { s with keyBytes := t.keyBytes, keyLen := t.keyLen, keyValid := true,
                   phase := .respond, resp := some [0x00#8], entAnswer := none }

/-- R238: "Raised by SETKEY when `L − 1 > KEY_MAX_BYTES`. The key register is left unchanged." The place of ENTROPY's
answer in State is the model's choice (log 4). -/
def Obligations.SetkeyTooLongKeepsTheKey : Prop :=
  ∀ (key : Bytes) (s : State), Config.keyMaxBytes < key.length →
    exec (.setkey key) s = .next { s with phase := .respond, resp := some [0x07#8], entAnswer := none }

/-- R203: SETCFG of a byte without reserved bits writes CFG and returns it; nothing else changes, and no key is
needed. The place of ENTROPY's answer in State is the model's choice (log 4). -/
def Obligations.SetcfgWritesAndReturnsCfg : Prop :=
  ∀ (c : Byte) (s : State), cfgReserved c = 0#6 →
    exec (.setcfg c) s = .next { s with cfg := c, phase := .respond, resp := some [0x00#8, c], entAnswer := none }

/-- R93: SETCFG with a reserved bit set raises MALFORMED_COMMAND and leaves CFG unchanged. The place of ENTROPY's
answer in State is the model's choice (log 4). -/
def Obligations.SetcfgReservedBitIsMalformed : Prop :=
  ∀ (c : Byte) (s : State), (∃ i, 2 ≤ i ∧ i < 8 ∧ c.getLsbD i = true) →
    exec (.setcfg c) s = .next { s with phase := .respond, resp := some [0x09#8], entAnswer := none }

/-- R116, R113: DERIVE with a key loaded responds with the first nine bytes of `SHA1(key || nonce)` and writes no
register. The place of ENTROPY's answer in State is the model's choice (log 4). -/
def Obligations.DeriveRespondsTheMaskVector : Prop :=
  ∀ (n : Nonce) (s : State), s.keyValid = true →
    exec (.derive n) s = .next { s with
      phase := .respond
      resp := some (0x00#8 :: (sha1 (s.key ++ [n.n0, n.n1, n.n2])).take 9)
      entAnswer := none }

/-- R237: DERIVE, ENCODE and DECODE raise KEY_NOT_LOADED when KEY_VALID = 0. The place of ENTROPY's answer in State is
the model's choice (log 4). -/
def Obligations.CommandsOnFramesNeedAKey : Prop :=
  ∀ (i : Instr) (s : State), s.keyValid = false →
    (∃ n, i = .derive n) ∨ (∃ a b c p, i = .encode a b c p) ∨ (∃ r, i = .decode r) →
    exec i s = .next { s with phase := .respond, resp := some [0x06#8], entAnswer := none }

/-- R145, R146, R40: an ENCODE that passes its checks, with no answer there yet, makes one request and holds. The
request's number (log 5) and the answer's place in State (log 4) are the model's choice. -/
def Obligations.EncodeAsksEntropyAndHolds : Prop :=
  ∀ (f : Frame) (s : State), s.keyValid = true → f.payload.length ≤ Config.maxPayloadBytes → s.entAnswer = none →
    exec (.encode f.streamId f.seq f.closing f.payload) s = .next { s with
      phase := .waitEnt
      entPending := true
      entRequests := s.entRequests + 1
      cur := s.cur.map fun c => ⟨c.msg, some f⟩ }

/-- R144, R143, R140, R141: the ENCODE that ENTROPY has answered with three bytes completes with the record, and
writes no register. The answer's place in State is the model's choice (log 4). -/
def Obligations.EncodeRespondsTheRecord : Prop :=
  ∀ (f : Frame) (n : Nonce) (s : State), s.keyValid = true → f.payload.length ≤ Config.maxPayloadBytes →
    s.entAnswer = some (.bytes n) →
    exec (.encode f.streamId f.seq f.closing f.payload) s = .next { s with
      phase := .respond
      resp := some (0x00#8 :: ([0x17#8, 0x03#8, 0x03#8] ++ bytes16 (BitVec.ofNat 16 (12 + f.payload.length))
        ++ xorBytes (bytes32 f.streamId ++ bytes32 f.seq ++ [f.closing])
            ((sha1 (s.key ++ [n.n0, n.n1, n.n2])).take 9)
        ++ [n.n0, n.n1, n.n2] ++ f.payload))
      entAnswer := none }

/-- R147, R245: ENTROPY's FAIL is ENTROPY_UNAVAILABLE, with no record and no second request. The answer's place in
State is the model's choice (log 4). -/
def Obligations.EncodeReportsEntropyFailure : Prop :=
  ∀ (f : Frame) (s : State), s.keyValid = true → f.payload.length ≤ Config.maxPayloadBytes →
    s.entAnswer = some .fail →
    exec (.encode f.streamId f.seq f.closing f.payload) s =
      .next { s with phase := .respond, resp := some [0x03#8], entAnswer := none }

/-- R148, R145: a payload over 65523 bytes is PAYLOAD_TOO_LARGE, with no entropy request. The place of ENTROPY's
answer in State is the model's choice (log 4). -/
def Obligations.EncodeRejectsLongPayload : Prop :=
  ∀ (f : Frame) (s : State), s.keyValid = true → 65523 < f.payload.length →
    exec (.encode f.streamId f.seq f.closing f.payload) s =
      .next { s with phase := .respond, resp := some [0x02#8], entAnswer := none }

/-- R176, R178 to R180: DECODE with a key loaded, of a record that every check in force accepts, completes with the
header image unmasked and the payload after it, and writes no register. The place of ENTROPY's answer in State is the
model's choice (log 4). -/
def Obligations.DecodeRespondsTheFrame : Prop :=
  ∀ (r : Bytes) (s : State), s.keyValid = true → 17 ≤ r.length →
    (s.cfg.getLsbD 0 = true → slice r 0 3 = [0x17#8, 0x03#8, 0x03#8]) →
    (s.cfg.getLsbD 1 = true → (be16 (slice r 3 5)).toNat = r.length - 5) →
    exec (.decode r) s = .next { s with
      phase := .respond
      resp := some (0x00#8 :: (xorBytes (slice r 5 14) ((sha1 (s.key ++ slice r 14 17)).take 9) ++ r.drop 17))
      entAnswer := none }

/-- R178: lenient decoding is exact: with both checks off, every record of at least 17 bytes decodes to the frame
`dec` gives, whatever its first five bytes are. The place of ENTROPY's answer in State is the model's choice (log 4).
-/
def Obligations.LenientDecodingIsExact : Prop :=
  ∀ (r : Bytes) (s : State), s.keyValid = true → s.cfg.getLsbD 0 = false → s.cfg.getLsbD 1 = false → 17 ≤ r.length →
    exec (.decode r) s = .next { s with
      phase := .respond
      resp := some (0x00#8 :: (headerImage (dec s.key r) ++ (dec s.key r).payload))
      entAnswer := none } ∧
    ∀ r' : Bytes, r'.drop 5 = r.drop 5 → dec s.key r' = dec s.key r

/-- R177, R184, R232, R235, R236: DECODE's rejections in their order. The place of ENTROPY's answer in State is the
model's choice (log 4). -/
def Obligations.DecodeRejectionsInOrder : Prop :=
  ∀ (r : Bytes) (s : State),
    (s.keyValid = false →
      exec (.decode r) s = .next { s with phase := .respond, resp := some [0x06#8], entAnswer := none }) ∧
    (s.keyValid = true → r.length < 17 →
      exec (.decode r) s = .next { s with phase := .respond, resp := some [0x01#8], entAnswer := none }) ∧
    (s.keyValid = true → 17 ≤ r.length → s.cfg.getLsbD 0 = true → slice r 0 3 ≠ [0x17#8, 0x03#8, 0x03#8] →
      exec (.decode r) s = .next { s with phase := .respond, resp := some [0x04#8], entAnswer := none }) ∧
    (s.keyValid = true → 17 ≤ r.length → (s.cfg.getLsbD 0 = true → slice r 0 3 = [0x17#8, 0x03#8, 0x03#8]) →
      s.cfg.getLsbD 1 = true → (be16 (slice r 3 5)).toNat ≠ r.length - 5 →
      exec (.decode r) s = .next { s with phase := .respond, resp := some [0x05#8], entAnswer := none })

/-- R24, R28, R57: what a command may write, for all five at once. The fields of the agents' side are the model's own
(logs 1, 2, 3, 5, 22). -/
def Obligations.FrameOfEveryCommand : Prop :=
  ∀ (i : Instr) (s t : State), exec i s = .next t →
    t.offers = s.offers ∧ t.taken = s.taken ∧ t.accepted = s.accepted ∧ t.turns = s.turns ∧
    t.cur.map (·.msg) = s.cur.map (·.msg) ∧
    ((∀ k, i ≠ .setkey k) → t.keyBytes = s.keyBytes ∧ t.keyLen = s.keyLen ∧ t.keyValid = s.keyValid) ∧
    ((∀ c, i ≠ .setcfg c) → t.cfg = s.cfg) ∧
    ((∀ a b c p, i ≠ .encode a b c p) →
      t.entRequests = s.entRequests ∧ t.entPending = s.entPending ∧ t.cur = s.cur ∧ t.phase = .respond)

/-- R231, R230: a command that fails, in dispatch or in its own checks, records its status code and nothing else.
Turns and the place of ENTROPY's answer in State are the model's choice (logs 1, 4). -/
def Obligations.FailedCommandWritesNothing : Prop :=
  ∀ (s s' t : State) (status : Byte) (body : Bytes), s.phase = .exec →
    (s.turns = [] ∧ s' = s) ∨ (∃ ts, s.turns = .cfc :: ts ∧ s' = { s with turns := ts }) →
    step s = .next t → t.phase = .respond → t.resp = some (status :: body) → status ≠ 0x00#8 →
    body = [] ∧ t = { s' with phase := .respond, resp := some [status], entAnswer := none }

/-! ### The units -/

/-- R118: the padded message. -/
def Obligations.PaddingFillsWholeBlocks : Prop :=
  ∀ m : Bytes, ∃ z : Nat,
    pad m = m ++ [0x80#8] ++ List.replicate z 0x00#8 ++ bytes64 (BitVec.ofNat 64 (8 * m.length)) ∧
    (m.length + 1 + z) % 64 = 56 ∧ (∀ z' : Nat, (m.length + 1 + z') % 64 = 56 → z ≤ z') ∧
    (z : Int) = (55 - (m.length : Int)) % 64 ∧ (pad m).length = 64 * ((m.length + 9 + 63) / 64)

/-- R125: one block up to 52 key bytes, two from 53 to 116; so one or two for every key the register can hold. -/
def Obligations.BlockCountOfTheDeriver : Prop :=
  ∀ (key : Bytes) (n : Nonce),
    (key ++ nonceBytes n).length = key.length + 3 ∧
    (key.length ≤ 52 → blockCount (key ++ nonceBytes n) = 1) ∧
    (53 ≤ key.length → key.length ≤ 116 → blockCount (key ++ nonceBytes n) = 2) ∧
    ∀ s : State, blockCount (s.key ++ nonceBytes n) = 1 ∨ blockCount (s.key ++ nonceBytes n) = 2

/-- R112, R124: the masks are read from the first nine digest bytes, and K1, K2, K3 are H0, H1 and the top byte of
H2. -/
def Obligations.MasksAreTheFirstNineDigestBytes : Prop :=
  ∀ (key : Bytes) (n : Nonce),
    let k := deriveMasks key n
    let d := sha1 (key ++ nonceBytes n)
    let h := sha1Chain (key ++ nonceBytes n)
    d = bytes32 h.h0 ++ bytes32 h.h1 ++ bytes32 h.h2 ++ bytes32 h.h3 ++ bytes32 h.h4 ∧ d.length = 20 ∧
    d.take 9 = bytes32 h.h0 ++ bytes32 h.h1 ++ [h.h2.extractLsb' 24 8] ∧
    k.k1 = be32 (slice (d.take 9) 0 4) ∧ k.k2 = be32 (slice (d.take 9) 4 8) ∧ k.k3 = byteAt (d.take 9) 8 ∧
    bytes32 k.k1 ++ bytes32 k.k2 ++ [k.k3] = d.take 9 ∧
    k.k1 = h.h0 ∧ k.k2 = h.h1 ∧ k.k3 = h.h2.extractLsb' 24 8

/-- R115, not normative: under GO_SUM_APPEND a key of nine bytes or more would be its own mask vector, whatever the
nonce. -/
def Obligations.GoSumMasksShowTheKey : Prop :=
  ∀ (key : Bytes) (n : Nonce), 9 ≤ key.length → maskVectorOf .goSumAppend key n = key.take 9

/-- R54: masking a field's u32 is masking its four bytes, so the nine-byte XOR is the three field-wise XORs. -/
def Obligations.MaskingIsFieldwise : Prop :=
  (∀ a b : U32, bytes32 (a ^^^ b) = xorBytes (bytes32 a) (bytes32 b)) ∧
  ∀ (f : Frame) (key : Bytes) (n : Nonce),
    let k := deriveMasks key n
    xorBytes (headerImage f) (maskVector key n) =
      bytes32 (f.streamId ^^^ k.k1) ++ bytes32 (f.seq ^^^ k.k2) ++ [f.closing ^^^ k.k3]

/-- R150, R151, R152: where the bytes of the record of an OK ENCODE response stand. The place of ENTROPY's answer in
State is the model's choice (log 4). -/
def Obligations.LayoutOfTheEncodedRecord : Prop :=
  ∀ (key : Bytes) (n : Nonce) (f : Frame), f.payload.length ≤ Config.maxPayloadBytes →
    let r := enc key n f
    r.length = 17 + f.payload.length ∧
    r.take 5 = [0x17#8, 0x03#8, 0x03#8] ++ bytes16 (BitVec.ofNat 16 (12 + f.payload.length)) ∧
    (be16 (slice r 3 5)).toNat = 12 + f.payload.length ∧
    slice r 5 14 = xorBytes (headerImage f) (maskVector key n) ∧
    slice r 14 17 = [n.n0, n.n1, n.n2] ∧
    r.drop 17 = f.payload ∧
    ∀ s : State, s.keyValid = true → s.key = key → s.entAnswer = some (.bytes n) →
      ∃ t, exec (.encode f.streamId f.seq f.closing f.payload) s = .next t ∧ t.resp = some (0x00#8 :: r)

/-- R81: every record the encoder emits is canonical, and the strict checks accept exactly the canonical records. -/
def Obligations.StrictChecksAcceptCanonicalRecords : Prop :=
  (∀ (key : Bytes) (n : Nonce) (f : Frame), f.payload.length ≤ Config.maxPayloadBytes →
    slice (enc key n f) 0 3 = [0x17#8, 0x03#8, 0x03#8] ∧
    (be16 (slice (enc key n f) 3 5)).toNat = (enc key n f).length - 5 ∧ 17 ≤ (enc key n f).length) ∧
  ∀ r : Bytes, 17 ≤ r.length →
    (validate true true r = none ↔
      slice r 0 3 = [0x17#8, 0x03#8, 0x03#8] ∧ (be16 (slice r 3 5)).toNat = r.length - 5)

/-- R182: the decoder undoes the encoder, and DECODE gives the frame back for every CFG value. The place of ENTROPY's
answer in State is the model's choice (log 4). -/
def Obligations.DecoderUndoesEncoder : Prop :=
  ∀ (key : Bytes) (n : Nonce) (f : Frame), f.payload.length ≤ Config.maxPayloadBytes →
    dec key (enc key n f) = f ∧
    ∀ s : State, s.keyValid = true → s.key = key →
      exec (.decode (enc key n f)) s = .next { s with
        phase := .respond
        resp := some (0x00#8 :: (bytes32 f.streamId ++ bytes32 f.seq ++ [f.closing] ++ f.payload))
        entAnswer := none }

/-- R183: encoding a decoded record again gives the record back exactly when it is canonical. -/
def Obligations.EncoderUndoesDecoderOnCanonicalRecords : Prop :=
  ∀ (key r : Bytes), 17 ≤ r.length →
    (canonicalRecord r = true → r.length - 5 ≤ 65535 ∧ (dec key r).payload.length ≤ Config.maxPayloadBytes) ∧
    ((dec key r).payload.length ≤ Config.maxPayloadBytes →
      (enc key (recordNonce r) (dec key r) = r ↔ canonicalRecord r = true))

/-- R185: what a wrong key gives. The place of ENTROPY's answer in State is the model's choice (log 4). -/
def Obligations.WrongKeyGivesTheXorOfTheMasks : Prop :=
  ∀ (k1 k2 : Bytes) (n : Nonce) (f : Frame), f.payload.length ≤ Config.maxPayloadBytes →
    let g := dec k2 (enc k1 n f)
    g.payload = f.payload ∧
    headerImage g = xorBytes (xorBytes (headerImage f) (maskVector k1 n)) (maskVector k2 n) ∧
    (g ≠ f ↔ maskVector k1 n ≠ maskVector k2 n) ∧
    ∀ s : State, s.keyValid = true → s.key = k2 → s.chkPre = false → s.chkLen = false →
      exec (.decode (enc k1 n f)) s = .next { s with
        phase := .respond, resp := some (0x00#8 :: frameImage g), entAnswer := none }

/-! ### Reset and the ports -/

/-- R38: the values after reset. -/
def Obligations.ResetValues : Prop :=
  (∀ i : Fin Config.keyMaxBytes, State.reset.keyBytes[i] = 0x00#8) ∧ State.reset.keyLen.val = 0 ∧
  State.reset.keyValid = false ∧ State.reset.cfg = 0x00#8 ∧ State.reset.phase = .idle ∧ State.reset.cur = none ∧
  State.reset.entPending = false ∧ State.reset.resp = none

/-- R271: RESET in any phase sets every element of the CFC to its reset value in one step. That RESET moves in a turn is
the model's choice (log 1). -/
def Obligations.ResetTurnClearsTheCodec : Prop :=
  ∀ (s : State) (ts : List Turn), s.turns = .reset :: ts →
    ∃ t, step s = .next t ∧ (∀ i : Fin Config.keyMaxBytes, t.keyBytes[i] = 0x00#8) ∧ t.keyLen.val = 0 ∧
      t.keyValid = false ∧ t.cfg = 0x00#8 ∧ t.phase = .idle ∧ t.cur = none ∧ t.entPending = false ∧ t.resp = none

/-- R272: RESET emits no response. That an answer already given is gone with its command is the model's inference (log
6). That the messages HOST has waiting, the responses it has taken, the count of requests and the record of what was
accepted stay as they are is the model's choice (logs 2, 3, 5, 22). Turns and the place of ENTROPY's answer in State
are the model's choice (logs 1, 4). -/
def Obligations.ResetTurnLeavesTheAgentsTheirs : Prop :=
  ∀ (s : State) (ts : List Turn), s.turns = .reset :: ts →
    ∃ t, step s = .next t ∧ t.taken = s.taken ∧ t.entAnswer = none ∧ t.entRequests = s.entRequests ∧
      t.offers = s.offers ∧ t.accepted = s.accepted ∧ t.turns = ts

/-- R33: in IDLE the oldest message HOST offers is taken whole into CUR; in no other phase does a step of any agent
but RESET replace the message in CUR or take an offer away. That the waiting messages are a list, oldest first, and
that the accepted ones are recorded is the model's choice (logs 2, 22). Turns are the model's choice (log 1). -/
def Obligations.PortAcceptsOnlyWhenIdle : Prop :=
  (∀ (s : State) (msg : Bytes) (rest : List Bytes), s.phase = .idle → s.offers = msg :: rest → s.turns = [] →
    step s = .next { s with
      phase := .exec, cur := some ⟨msg, none⟩, offers := rest, accepted := s.accepted ++ [msg] }) ∧
  (∀ (s : State) (msg : Bytes) (rest : List Bytes) (ts : List Turn), s.phase = .idle → s.offers = msg :: rest →
    s.turns = .cfc :: ts →
    step s = .next { s with
      phase := .exec, cur := some ⟨msg, none⟩, offers := rest, accepted := s.accepted ++ [msg], turns := ts }) ∧
  ∀ s t : State, s.phase ≠ .idle → step s = .next t →
    (∃ more, t.offers = s.offers ++ more) ∧ t.accepted = s.accepted ∧
    (t.phase ≠ .idle → t.cur.map (·.msg) = s.cur.map (·.msg))

/-- R34, R40: HOST takes the response held, PHASE returns to IDLE and CUR is discarded. The list of responses taken is
the model's own (log 3). Turns are the model's choice (log 1). -/
def Obligations.TakingTheResponseReturnsToIdle : Prop :=
  ∀ (s : State) (r : Bytes) (ts : List Turn), s.phase = .respond → s.resp = some r → s.turns = .hostTake :: ts →
    step s = .next { s with phase := .idle, cur := none, resp := none, taken := s.taken ++ [r], turns := ts }

/-- R32, R35, R273: the answer to the outstanding request lifts the hold; any other answer changes nothing. That an
answer carries its request's number is the model's choice (log 5); that an answer with no request outstanding changes
nothing either is the model's inference (log 13), since R273 says so of withdrawn requests only. Turns and the place
of ENTROPY's answer in State are the model's choice (logs 1, 4). -/
def Obligations.OnlyTheOutstandingAnswerLiftsTheHold : Prop :=
  ∀ (s : State) (req : Nat) (a : EntropyAnswer) (ts : List Turn), s.turns = .entropyAnswer req a :: ts →
    (s.phase = .waitEnt → req = s.entRequests →
      step s = .next { s with phase := .exec, entPending := false, entAnswer := some a, turns := ts }) ∧
    (s.phase ≠ .waitEnt ∨ req ≠ s.entRequests → step s = .next { s with turns := ts })

/-! ### Rules of the whole machine -/

/-- The invariant holds at reset (R38 with R22, R23, R27, R32, R40). The place of ENTROPY's answer in State is the
model's choice (log 4). -/
def Obligations.ResetMeetsTheInvariant : Prop := State.reset.Inv

/-- Every step of every agent keeps the invariant, from every state that meets it (its clauses on the entropy answer
and on CUR's frame are the model's choice, log 4). -/
def Obligations.StepKeepsTheInvariant : Prop :=
  ∀ s t : State, s.Inv → step s = .next t → t.Inv

/-- R96, R97: every response begins with a status from 0x00 to 0x0A, and an error response is that byte alone. The
list of taken responses is the model's choice (log 3). -/
def Obligations.StepKeepsResponsesLegal : Prop :=
  ∀ s t : State, s.ResponsesLegal → step s = .next t → t.ResponsesLegal

/-- R101, R200, R287: from a state that meets the invariant no step stops. -/
def Obligations.NoStepStops : Prop :=
  ∀ s : State, s.Inv → ∃ t, step s = .next t

/-- R32: the moves of PHASE, and what causes each. Turns, the list of waiting messages, the list of taken responses,
the place of ENTROPY's answer in State and the numbered requests are the model's choice (logs 1, 2, 3, 4, 5). -/
def Obligations.PhaseMovesAsTheSequencerSays : Prop :=
  ∀ s t : State, step s = .next t → t.phase ≠ s.phase →
    (∃ ts, s.turns = .reset :: ts ∧ t.phase = .idle) ∨
    (s.phase = .idle ∧ t.phase = .exec ∧ ∃ msg, s.offers.head? = some msg ∧ t.cur = some ⟨msg, none⟩) ∨
    (s.phase = .exec ∧ t.phase = .waitEnt ∧ t.entPending = true ∧ t.entRequests = s.entRequests + 1) ∨
    (s.phase = .waitEnt ∧ t.phase = .exec ∧ ∃ a ts, s.turns = .entropyAnswer s.entRequests a :: ts ∧
      t.entAnswer = some a) ∨
    (s.phase = .exec ∧ t.phase = .respond ∧ t.resp ≠ none) ∨
    (s.phase = .respond ∧ t.phase = .idle ∧ ∃ r, s.resp = some r ∧ t.taken = s.taken ++ [r])

/-- R23, R24: only SETKEY and reset write the key register. Turns are the model's choice (log 1). -/
def Obligations.OnlySetkeyAndResetWriteTheKey : Prop :=
  ∀ s t : State, step s = .next t →
    ¬(t.keyBytes = s.keyBytes ∧ t.keyLen = s.keyLen ∧ t.keyValid = s.keyValid) →
    (∃ ts, s.turns = .reset :: ts) ∨
    (s.phase = .exec ∧ ∃ c k, s.cur = some c ∧ decode c.msg = .instr (.setkey k) ∧
      k.length ≤ Config.keyMaxBytes ∧ t.key = k ∧ t.keyValid = true ∧ t.resp = some [0x00#8])

/-- R28: only SETCFG and reset write CFG. Turns are the model's choice (log 1). -/
def Obligations.OnlySetcfgAndResetWriteCfg : Prop :=
  ∀ s t : State, step s = .next t → t.cfg ≠ s.cfg →
    (∃ ts, s.turns = .reset :: ts) ∨
    (s.phase = .exec ∧ ∃ c b, s.cur = some c ∧ decode c.msg = .instr (.setcfg b) ∧ cfgReserved b = 0#6 ∧
      t.cfg = b ∧ t.resp = some [0x00#8, b])

/-- R36: one entropy request for each ENCODE that passes its checks, and none for anything else. That the requests are
counted (log 5), that the ENCODE executes a second time after the answer, with CUR's frame as the mark of it (log 4),
and that whose turn it is stands in `turns` (log 1) is the model's choice. -/
def Obligations.EntropyRequestsComeFromPassingEncodes : Prop :=
  (∀ s t : State, step s = .next t → t.entRequests ≠ s.entRequests →
    t.entRequests = s.entRequests + 1 ∧ s.phase = .exec ∧ t.phase = .waitEnt ∧ s.entAnswer = none ∧
      ∃ c, s.cur = some c ∧ asksEntropy s.regs c.msg = true) ∧
  ∀ (s : State) (c : Cur), s.Inv → s.phase = .exec → s.cur = some c → asksEntropy s.regs c.msg = true →
    s.turns = [] ∨ (∃ ts, s.turns = .cfc :: ts) →
    (c.frame = none → ∃ t, step s = .next t ∧ t.entRequests = s.entRequests + 1 ∧ t.phase = .waitEnt) ∧
    (c.frame ≠ none → ∃ t, step s = .next t ∧ t.entRequests = s.entRequests ∧ t.phase = .respond)

/-- R34, R60, R61: one response per accepted command: but for RESET and a new offer, what waits, is in flight and has
been taken adds up to the same, and so does what waits and has been accepted; what has been accepted and neither is in
flight nor was answered stays the same. The lists counted are the model's own (logs 2, 3, 22). Turns are the model's
choice (log 1). -/
def Obligations.OneResponsePerCommand : Prop :=
  ∀ s t : State, s.Inv → step s = .next t → (∀ ts, s.turns ≠ .reset :: ts) →
    ((∀ m ts, s.turns ≠ .hostSend m :: ts) →
      t.offers.length + t.inFlight + t.taken.length = s.offers.length + s.inFlight + s.taken.length ∧
      t.accepted ++ t.offers = s.accepted ++ s.offers) ∧
    s.accepted.length + t.inFlight + t.taken.length = t.accepted.length + s.inFlight + s.taken.length ∧
    (∀ m ts, s.turns = .hostSend m :: ts →
      t.offers = s.offers ++ [m] ∧ t.inFlight = s.inFlight ∧ t.taken = s.taken ∧ t.accepted = s.accepted)

/-- R61, R66: what HOST has taken never changes; the next response taken is the one held at the port. Turns and the
list of taken responses are the model's choice (logs 1, 3). -/
def Obligations.TakenResponsesNeverChange : Prop :=
  ∀ s t : State, step s = .next t →
    t.taken = s.taken ∨ ∃ r ts, s.turns = .hostTake :: ts ∧ s.resp = some r ∧ t.taken = s.taken ++ [r]

/-- R146, R279, R280: with no answer to its request and no reset among the turns to come, the entropy hold lasts for
any number of steps: nothing is accepted, no response comes, no register changes. Turns and the record of accepted
messages are the model's choice (logs 1, 22). The list of waiting messages, the list of taken responses and the
numbered requests are the model's choice (logs 2, 3, 5). -/
def Obligations.EntropyHoldLasts : Prop :=
  ∀ (k : Nat) (s : State), s.phase = .waitEnt → .reset ∉ s.turns →
    (∀ a, .entropyAnswer s.entRequests a ∉ s.turns) →
    ∃ t, Host.Core.run Sys2Proof.core k s = .next t ∧ t.phase = .waitEnt ∧ t.entPending = s.entPending ∧
      t.cur = s.cur ∧ t.taken = s.taken ∧ t.accepted = s.accepted ∧ t.observation = s.observation ∧
      (∃ more, t.offers = s.offers ++ more)

/-- R279, R281: with no taking HOST and no reset among the turns to come, the response hold lasts. Turns and the
record of accepted messages are the model's choice (logs 1, 22). The list of waiting messages and the list of taken
responses are the model's choice (logs 2, 3). -/
def Obligations.ResponseHoldLasts : Prop :=
  ∀ (k : Nat) (s : State), s.phase = .respond → .reset ∉ s.turns → .hostTake ∉ s.turns →
    ∃ t, Host.Core.run Sys2Proof.core k s = .next t ∧ t.phase = .respond ∧ t.resp = s.resp ∧ t.cur = s.cur ∧
      t.accepted = s.accepted ∧ t.observation = s.observation ∧ (∃ more, t.offers = s.offers ++ more)

/-- R242: the error raised is the first row of the table whose test holds; when none holds, the command completes
with status OK or, an ENCODE without an answer, asks ENTROPY. Turns and the place of ENTROPY's answer in State are the
model's choice (logs 1, 4). -/
def Obligations.ErrorsFollowTheTable : Prop :=
  ∀ (s s' : State) (c : Cur) (a : EntropyAnswer), s.phase = .exec → s.cur = some c →
    (s.turns = [] ∧ s' = s) ∨ (∃ ts, s.turns = .cfc :: ts ∧ s' = { s with turns := ts }) →
    s.entAnswer = some a ∨ (s.entAnswer = none ∧ a = .bytes ⟨0#8, 0#8, 0#8⟩) →
    (∀ e, firstError s.regs a c.msg = some e →
      step s = .next { s' with phase := .respond, resp := some [e.code], entAnswer := none }) ∧
    (firstError s.regs a c.msg = none →
      ∃ t, step s = .next t ∧
        ((s.entAnswer = none ∧ asksEntropy s.regs c.msg = true ∧ t.phase = .waitEnt) ∨
         (t.phase = .respond ∧ ∃ body, t.resp = some (0x00#8 :: body))))

/-- R22: no rule reads KEY_BYTES past KEY_LEN: two states that differ there only answer a command alike. -/
def Obligations.KeyBytesPastTheLengthAreNotRead : Prop :=
  ∀ (i : Instr) (s t : State) (other : Vector Byte Config.keyMaxBytes),
    other.toList.take s.keyLen.val = s.key → exec i s = .next t →
    ∃ t', exec i { s with keyBytes := other } = .next t' ∧ t'.key = t.key ∧
      { t' with keyBytes := t.keyBytes } = t

/-- R28, R111: CFG steers DECODE alone: any other command answers alike under another CFG. -/
def Obligations.CfgSteersDecodeOnly : Prop :=
  ∀ (i : Instr) (s t : State) (other : Byte), (∀ r, i ≠ .decode r) → exec i s = .next t →
    ∃ t', exec i { s with cfg := other } = .next t' ∧ { t' with cfg := t.cfg } = t

/-- R57, R111, R175: DERIVE and DECODE are idempotent: the same command with the same key and CFG yields the same
response, whatever else the two states hold. -/
def Obligations.DeriveAndDecodeAreIdempotent : Prop :=
  ∀ (i : Instr) (s s' : State), (∃ n, i = .derive n) ∨ (∃ r, i = .decode r) → s.regs = s'.regs →
    ∃ t t', exec i s = .next t ∧ exec i s' = .next t' ∧ t.resp = t'.resp ∧ t.resp ≠ none ∧ t.regs = s.regs ∧
      t'.regs = s'.regs

/-- R34, R60, R200, R287: one whole command, from IDLE to the taken response, is the reference reading of the spec's
pseudocode, and the run of that one command is then over. Turns and the record of accepted messages are the model's
choice (logs 1, 22). The list of waiting messages, the list of taken responses and the numbered requests are the
model's choice (logs 2, 3, 5). -/
def Obligations.OneCommandFollowsTheReference : Prop :=
  ∀ (s : State) (cmd : Bytes) (a : EntropyAnswer) (rest : List Bytes) (ts : List Turn),
    s.Inv → s.phase = .idle → s.offers = cmd :: rest → s.turns = fairTurns s.entRequests s.regs [(cmd, a)] ++ ts →
    ∃ t, Host.Core.run Sys2Proof.core (fairTurns s.entRequests s.regs [(cmd, a)]).length s = .next t ∧
      t.Inv ∧ t.phase = .idle ∧ t.offers = rest ∧ t.turns = ts ∧
      t.taken = s.taken ++ [(reference s.regs a cmd).1] ∧ t.regs = (reference s.regs a cmd).2 ∧
      t.accepted = s.accepted ++ [cmd] ∧ t.RunOver s [cmd] ∧
      t.entRequests = s.entRequests + (if asksEntropy s.regs cmd then 1 else 0)

/-- R60, R61, R287, R288: a fair run of any sequence of commands is over after its turns, and its responses and
registers are the reference reading's. Turns and the record of accepted messages are the model's choice (logs 1, 22).
The list of waiting messages, the list of taken responses and the numbered requests are the model's choice (logs 2, 3,
5). -/
def Obligations.FairRunFollowsTheReference : Prop :=
  ∀ (cmds : List (Bytes × EntropyAnswer)) (s : State),
    s.Inv → s.phase = .idle → s.offers = cmds.map (·.1) → s.turns = fairTurns s.entRequests s.regs cmds →
    ∃ t, Host.Core.run Sys2Proof.core (fairTurns s.entRequests s.regs cmds).length s = .next t ∧
      t.Inv ∧ t.offers = [] ∧ t.turns = [] ∧ t.RunOver s (cmds.map (·.1)) ∧
      t.taken = s.taken ++ (referenceRun s.regs cmds).1 ∧ t.regs = (referenceRun s.regs cmds).2

/-- R272, R288: a run in which a RESET discards a command in flight is never over, for no sequence of commands: the
discarded command has no response. The records of accepted commands and taken responses are the model's own (logs 3,
22). Turns are the model's choice (log 1). -/
def Obligations.DiscardedCommandLeavesTheRunOpen : Prop :=
  ∀ (k : Nat) (start s t : State) (ts : List Turn) (cmds : List Bytes),
    start.accepted.length + s.taken.length + s.inFlight ≤ s.accepted.length + start.taken.length →
    s.phase ≠ .idle → s.turns = .reset :: ts → Host.Core.run Sys2Proof.core (k + 1) s = .next t →
    ¬ t.RunOver start cmds
end

