-- ==== Sys2Proof/Laws/Bytes.lean ====
section
/-! SUPPORT. The laws of the byte-sequence operations: lengths, the two directions of big-endian order, and XOR. -/

namespace Sys2Proof

@[simp] theorem length_slice (b : Bytes) (i j : Nat) : (slice b i j).length = min (j - i) (b.length - i) := by
  simp [slice]

@[simp] theorem length_bytes16 (v : U16) : (bytes16 v).length = 2 := rfl

@[simp] theorem length_bytes32 (v : U32) : (bytes32 v).length = 4 := rfl

@[simp] theorem length_bytes64 (v : U64) : (bytes64 v).length = 8 := rfl

@[simp] theorem length_nonceBytes (n : Nonce) : (nonceBytes n).length = 3 := rfl

@[simp] theorem length_xorBytes (a b : Bytes) : (xorBytes a b).length = min a.length b.length := by
  simp [xorBytes]

@[simp] theorem byteAt_cons_zero (x : Byte) (b : Bytes) : byteAt (x :: b) 0 = x := rfl

@[simp] theorem byteAt_cons_succ (x : Byte) (b : Bytes) (i : Nat) : byteAt (x :: b) (i + 1) = byteAt b i := rfl

theorem byteAt_eq_getElem (b : Bytes) (i : Nat) (h : i < b.length) : byteAt b i = b[i] := by
  simp [byteAt, h]

theorem byteAt_drop (b : Bytes) (i j : Nat) : byteAt (b.drop i) j = byteAt b (i + j) := by
  simp [byteAt, List.getD_eq_getElem?_getD]

theorem byteAt_slice (b : Bytes) (i j k : Nat) (h : k < j - i) : byteAt (slice b i j) k = byteAt b (i + k) := by
  simp [slice, byteAt, List.getD_eq_getElem?_getD, h]

/-- A slice that starts past a prefix is a slice of the rest. -/
theorem slice_append_right (a b : Bytes) (i j : Nat) (h : a.length ≤ i) :
    slice (a ++ b) i j = slice b (i - a.length) (j - a.length) := by
  have h1 : (a ++ b).drop i = b.drop (i - a.length) := by
    rw [List.drop_append, List.drop_eq_nil_of_le h, List.nil_append]
  simp only [slice, h1]
  congr 1
  omega

/-- A slice that ends before a suffix is a slice of the first part. -/
theorem slice_append_left (a b : Bytes) (i j : Nat) (h : j ≤ a.length) : slice (a ++ b) i j = slice a i j := by
  by_cases hi : i ≤ a.length
  · simp only [slice]
    rw [List.drop_append_of_le_length hi, List.take_append_of_le_length (by simp; omega)]
  · have : j - i = 0 := by omega
    simp [slice, this]

theorem slice_zero_self (b : Bytes) (j : Nat) (h : b.length ≤ j) : slice b 0 j = b := by
  simp [slice, List.take_of_length_le h]

/-- Cutting at `j` loses nothing. -/
theorem slice_append_slice (b : Bytes) (i j k : Nat) (hij : i ≤ j) (hjk : j ≤ k) :
    slice b i j ++ slice b j k = slice b i k := by
  have h : slice b j k = ((b.drop i).drop (j - i)).take (k - j) := by
    rw [List.drop_drop, show i + (j - i) = j by omega, slice]
  rw [h, slice, slice, ← List.take_add, show j - i + (k - j) = k - i by omega]

theorem slice_append_drop (b : Bytes) (i j : Nat) (hij : i ≤ j) : slice b i j ++ b.drop j = b.drop i := by
  have h : b.drop j = (b.drop i).drop (j - i) := by rw [List.drop_drop, show i + (j - i) = j by omega]
  rw [h, slice, List.take_append_drop]

/-! ### Big-endian order -/

theorem extract_byte_toNat (n : Nat) (v : BitVec n) (k : Nat) :
    (v.extractLsb' k 8).toNat = v.toNat / 2 ^ k % 256 := by
  simp [Nat.shiftRight_eq_div_pow]

@[simp] theorem be16_bytes16 (v : U16) : be16 (bytes16 v) = v := by
  have hv := v.isLt
  apply BitVec.eq_of_toNat_eq
  simp only [be16, bytes16, byteAt_cons_zero, byteAt_cons_succ, extract_byte_toNat, BitVec.toNat_ofNat]
  omega

@[simp] theorem be32_bytes32 (v : U32) : be32 (bytes32 v) = v := by
  have hv := v.isLt
  apply BitVec.eq_of_toNat_eq
  simp only [be32, bytes32, byteAt_cons_zero, byteAt_cons_succ, extract_byte_toNat, BitVec.toNat_ofNat]
  omega

theorem bytes16_be16 (a b : Byte) : bytes16 (be16 [a, b]) = [a, b] := by
  have ha := a.isLt
  have hb := b.isLt
  simp only [be16, bytes16, byteAt_cons_zero, byteAt_cons_succ]
  congr <;> · apply BitVec.eq_of_toNat_eq; simp only [extract_byte_toNat, BitVec.toNat_ofNat]; omega

theorem bytes32_be32 (a b c d : Byte) : bytes32 (be32 [a, b, c, d]) = [a, b, c, d] := by
  have ha := a.isLt
  have hb := b.isLt
  have hc := c.isLt
  have hd := d.isLt
  simp only [be32, bytes32, byteAt_cons_zero, byteAt_cons_succ]
  congr <;> · apply BitVec.eq_of_toNat_eq; simp only [extract_byte_toNat, BitVec.toNat_ofNat]; omega

/-- The integer a 16-bit field reads as. -/
theorem be16_toNat (a b : Byte) : (be16 [a, b]).toNat = a.toNat * 256 + b.toNat := by
  have ha := a.isLt
  have hb := b.isLt
  simp only [be16, byteAt_cons_zero, byteAt_cons_succ, BitVec.toNat_ofNat]
  omega

theorem eq_four (b : Bytes) (h : b.length = 4) : ∃ w x y z, b = [w, x, y, z] := by
  match b, h with
  | [w, x, y, z], _ => exact ⟨w, x, y, z, rfl⟩

theorem bytes32_be32_of_length (b : Bytes) (h : b.length = 4) : bytes32 (be32 b) = b := by
  obtain ⟨w, x, y, z, rfl⟩ := eq_four b h
  exact bytes32_be32 w x y z

theorem bytes16_be16_of_length (b : Bytes) (h : b.length = 2) : bytes16 (be16 b) = b := by
  match b, h with
  | [x, y], _ => exact bytes16_be16 x y

theorem nonceBytes_nonceOf (b : Bytes) (h : b.length = 3) : nonceBytes (nonceOf b) = b := by
  match b, h with
  | [x, y, z], _ => rfl

@[simp] theorem nonceOf_nonceBytes (n : Nonce) : nonceOf (nonceBytes n) = n := rfl

/-! ### XOR -/

theorem xorBytes_append (a b x y : Bytes) (h : a.length = x.length) :
    xorBytes (a ++ b) (x ++ y) = xorBytes a x ++ xorBytes b y := by
  simp [xorBytes, List.zipWith_append h]

theorem xorBytes_cancel (a m : Bytes) (h : a.length ≤ m.length) : xorBytes (xorBytes a m) m = a := by
  induction a generalizing m with
  | nil => simp [xorBytes]
  | cons x a ih =>
    cases m with
    | nil => simp at h
    | cons y m =>
      have := ih m (by simpa using h)
      simp only [xorBytes, List.zipWith_cons_cons] at this ⊢
      rw [this, BitVec.xor_assoc, BitVec.xor_self, BitVec.xor_zero]

theorem xorBytes_bytes32 (a b : U32) : xorBytes (bytes32 a) (bytes32 b) = bytes32 (a ^^^ b) := by
  simp only [xorBytes, bytes32, List.zipWith_cons_cons, List.zipWith_nil_left]
  congr <;> · ext i hi; simp

end Sys2Proof
end

