-- ==== Sys2Proof/Laws/Codec.lean ====
section
/-! SUPPORT. The laws of the units: how long each one's output is, and what its parts are. -/

namespace Sys2Proof

@[simp] theorem length_sha1 (m : Bytes) : (sha1 m).length = 20 := rfl

/-- Every derivation gives at least nine bytes, so the mask vector has nine. -/
theorem length_maskVectorOf (d : MaskDerivation) (key : Bytes) (nonce : Nonce) :
    (maskVectorOf d key nonce).length = 9 := by
  cases d <;> simp [maskVectorOf, digest, goSum]

@[simp] theorem length_maskVector (key : Bytes) (nonce : Nonce) : (maskVector key nonce).length = 9 :=
  length_maskVectorOf _ key nonce

@[simp] theorem length_headerImage (f : Frame) : (headerImage f).length = 9 := rfl

@[simp] theorem length_frameImage (f : Frame) : (frameImage f).length = 9 + f.payload.length := by
  simp [frameImage]

@[simp] theorem length_preamble (n : Nat) : (preamble n).length = 5 := rfl

@[simp] theorem length_preambleConst : preambleConst.length = 3 := rfl

theorem length_maskApply (f : Frame) (key : Bytes) (nonce : Nonce) :
    (maskApply (headerImage f) (maskVector key nonce)).length = 9 := by
  simp [maskApply]

/-- The encoder core, part by part. -/
theorem enc_eq (key : Bytes) (nonce : Nonce) (f : Frame) :
    enc key nonce f = preambleConst ++ bytes16 (BitVec.ofNat 16 (12 + f.payload.length))
      ++ maskApply (headerImage f) (maskVector key nonce) ++ nonceBytes nonce ++ f.payload := rfl

/-- The mask vector is the image of the three masks read from it. -/
theorem maskVector_eq_masks (key : Bytes) (nonce : Nonce) :
    maskVector key nonce = bytes32 (deriveMasks key nonce).k1 ++ bytes32 (deriveMasks key nonce).k2
      ++ [(deriveMasks key nonce).k3] := by
  have h := length_maskVector key nonce
  simp only [deriveMasks]
  generalize maskVector key nonce = m at h
  rw [bytes32_be32_of_length _ (by simp [h]), bytes32_be32_of_length _ (by simp [h])]
  match m, h with
  | [_, _, _, _, _, _, _, _, _], _ => rfl

/-- The header image of a reconstructed frame is the bytes it was made from. -/
theorem headerImage_recon (h r : Bytes) (hl : h.length = 9) : headerImage (recon h r) = h := by
  simp only [headerImage, recon]
  rw [bytes32_be32_of_length _ (by simp [hl]), bytes32_be32_of_length _ (by simp [hl])]
  match h, hl with
  | [_, _, _, _, _, _, _, _, _], _ => rfl

/-- A frame is made of its header image and its payload. -/
theorem recon_headerImage (f : Frame) (r : Bytes) : recon (headerImage f) r = { f with payload := recordPayload r } := by
  have h0 : slice (headerImage f) 0 4 = bytes32 f.streamId := rfl
  have h1 : slice (headerImage f) 4 8 = bytes32 f.seq := rfl
  have h2 : byteAt (headerImage f) 8 = f.closing := rfl
  simp only [recon, h0, h1, h2, be32_bytes32]

@[simp] theorem recon_payload (h r : Bytes) : (recon h r).payload = recordPayload r := rfl

/-- The validator passes exactly the records of at least 17 bytes that every check in force accepts. -/
theorem validate_eq_none (chkPre chkLen : Bool) (r : Bytes) :
    validate chkPre chkLen r = none ↔ Config.minRecordBytes ≤ r.length
      ∧ (chkPre = true → recordConst r = preambleConst) ∧ (chkLen = true → recordLength r = r.length - 5) := by
  unfold validate
  split
  · simp; omega
  · split
    · rename_i h
      simp [h.1, h.2]
    · split
      · rename_i h
        simp [h.1, h.2]
      · rename_i h1 h2 h3
        simp only [not_and, not_not] at h2 h3
        exact ⟨fun _ => ⟨Nat.le_of_not_lt h1, h2, h3⟩, fun _ => rfl⟩

end Sys2Proof
end

