-- ==== Sys2Proof/Laws/Decode.lean ====
section
/-! SUPPORT. What the decoder can answer, said once. -/

namespace Sys2Proof

/-- If the decoder answers a command, the message is not empty and not too long, and it is one of the five. -/
theorem decode_instr_cases {cmd : Bytes} {i : Instr} (h : decode cmd = .instr i) :
    0 < cmd.length ∧ cmd.length ≤ Config.maxMsgBytes ∧
      ((opcodeOf cmd = 0x01#8 ∧ i = .setkey (keyOperand cmd)) ∨
       (opcodeOf cmd = 0x02#8 ∧ cmd.length = 2 ∧ i = .setcfg (cfgOperand cmd)) ∨
       (opcodeOf cmd = 0x03#8 ∧ cmd.length = 4 ∧ i = .derive (nonceOperand cmd)) ∨
       (opcodeOf cmd = 0x04#8 ∧ 10 ≤ cmd.length ∧
          i = .encode (streamIdOperand cmd) (seqOperand cmd) (closingOperand cmd) (payloadOperand cmd)) ∨
       (opcodeOf cmd = 0x05#8 ∧ i = .decode (recordOperand cmd))) := by
  unfold decode at h
  split at h
  · cases h
  · split at h
    · cases h
    · rename_i hmax h0
      refine ⟨Nat.pos_of_ne_zero h0, Nat.le_of_not_lt hmax, ?_⟩
      unfold decodeOpcode decodeSetkey decodeSetcfg decodeDerive decodeEncode decodeDecode at h
      repeat' split at h
      all_goals cases h
      · exact .inl ⟨‹_›, rfl⟩
      · exact .inr (.inl ⟨‹_›, Decidable.not_not.mp ‹_›, rfl⟩)
      · exact .inr (.inr (.inl ⟨‹_›, Decidable.not_not.mp ‹_›, rfl⟩))
      · exact .inr (.inr (.inr (.inl ⟨‹_›, Nat.le_of_not_lt ‹_›, rfl⟩)))
      · exact .inr (.inr (.inr (.inr ⟨‹_›, rfl⟩)))

/-- If the decoder answers an error, it is the first of R242's orders 1 to 4 that applies. -/
theorem decode_error_cases {cmd : Bytes} {e : Err} (h : decode cmd = .error e) :
    (Config.maxMsgBytes < cmd.length ∧ e = .inputTooLarge) ∨
    (cmd.length = 0 ∧ e = .malformedCommand) ∨
    (0 < cmd.length ∧ cmd.length ≤ Config.maxMsgBytes ∧
      ((opcodeOf cmd = 0x02#8 ∧ cmd.length ≠ 2 ∧ e = .malformedCommand) ∨
       (opcodeOf cmd = 0x03#8 ∧ cmd.length ≠ 4 ∧ e = .malformedCommand) ∨
       (opcodeOf cmd = 0x04#8 ∧ cmd.length < 10 ∧ e = .malformedCommand) ∨
       (opcodeOf cmd ∉ [0x01#8, 0x02#8, 0x03#8, 0x04#8, 0x05#8] ∧ e = .illegalCommand))) := by
  unfold decode at h
  split at h
  · cases h; exact .inl ⟨‹_›, rfl⟩
  · split at h
    · cases h; exact .inr (.inl ⟨‹_›, rfl⟩)
    · rename_i hmax h0
      refine .inr (.inr ⟨Nat.pos_of_ne_zero h0, Nat.le_of_not_lt hmax, ?_⟩)
      unfold decodeOpcode decodeSetkey decodeSetcfg decodeDerive decodeEncode decodeDecode at h
      repeat' split at h
      all_goals cases h
      · exact .inl ⟨‹_›, ‹_›, rfl⟩
      · exact .inr (.inl ⟨‹_›, ‹_›, rfl⟩)
      · exact .inr (.inr (.inl ⟨‹_›, ‹_›, rfl⟩))
      · exact .inr (.inr (.inr ⟨by simp [*], rfl⟩))

/-- A message is its first byte and the rest. -/
theorem cons_of_length_pos {cmd : Bytes} (h : 0 < cmd.length) : cmd = opcodeOf cmd :: cmd.drop 1 := by
  cases cmd with
  | nil => simp at h
  | cons b rest => rfl

end Sys2Proof
end

