-- ==== Sys2Proof/Laws/State.lean ====
section
/-! SUPPORT. One lemma per field per update of the state, each true by rfl, so that no proof unfolds an update. -/

namespace Sys2Proof.Machine

@[simp] theorem respondOk_eq (body : Bytes) (s : State) : s.respondOk body = s.respond (okCode :: body) := rfl

@[simp] theorem raise_eq (e : Err) (s : State) : s.raise e = s.respond [e.code] := rfl

/-! ### loadKey -/

@[simp] theorem loadKey_keyBytes (s : State) (key : Bytes) : (s.loadKey key).keyBytes = loadKeyBytes key := rfl
@[simp] theorem loadKey_keyLen (s : State) (key : Bytes) :
    (s.loadKey key).keyLen = Fin.ofNat (Config.keyMaxBytes + 1) key.length := rfl
@[simp] theorem loadKey_keyValid (s : State) (key : Bytes) : (s.loadKey key).keyValid = true := rfl
@[simp] theorem loadKey_cfg (s : State) (key : Bytes) : (s.loadKey key).cfg = s.cfg := by
  unfold State.loadKey; rfl
@[simp] theorem loadKey_phase (s : State) (key : Bytes) : (s.loadKey key).phase = s.phase := by
  unfold State.loadKey; rfl
@[simp] theorem loadKey_cur (s : State) (key : Bytes) : (s.loadKey key).cur = s.cur := by
  unfold State.loadKey; rfl
@[simp] theorem loadKey_entPending (s : State) (key : Bytes) : (s.loadKey key).entPending = s.entPending := by
  unfold State.loadKey; rfl
@[simp] theorem loadKey_resp (s : State) (key : Bytes) : (s.loadKey key).resp = s.resp := by
  unfold State.loadKey; rfl
@[simp] theorem loadKey_entAnswer (s : State) (key : Bytes) : (s.loadKey key).entAnswer = s.entAnswer := by
  unfold State.loadKey; rfl
@[simp] theorem loadKey_entRequests (s : State) (key : Bytes) : (s.loadKey key).entRequests = s.entRequests := by
  unfold State.loadKey; rfl
@[simp] theorem loadKey_offers (s : State) (key : Bytes) : (s.loadKey key).offers = s.offers := by
  unfold State.loadKey; rfl
@[simp] theorem loadKey_taken (s : State) (key : Bytes) : (s.loadKey key).taken = s.taken := by
  unfold State.loadKey; rfl
@[simp] theorem loadKey_accepted (s : State) (key : Bytes) : (s.loadKey key).accepted = s.accepted := by
  unfold State.loadKey; rfl
@[simp] theorem loadKey_turns (s : State) (key : Bytes) : (s.loadKey key).turns = s.turns := by
  unfold State.loadKey; rfl

/-! ### loadCfg -/

@[simp] theorem loadCfg_keyBytes (s : State) (c : Byte) : (s.loadCfg c).keyBytes = s.keyBytes := rfl
@[simp] theorem loadCfg_keyLen (s : State) (c : Byte) : (s.loadCfg c).keyLen = s.keyLen := rfl
@[simp] theorem loadCfg_keyValid (s : State) (c : Byte) : (s.loadCfg c).keyValid = s.keyValid := rfl
@[simp] theorem loadCfg_cfg (s : State) (c : Byte) : (s.loadCfg c).cfg = c := rfl
@[simp] theorem loadCfg_phase (s : State) (c : Byte) : (s.loadCfg c).phase = s.phase := rfl
@[simp] theorem loadCfg_cur (s : State) (c : Byte) : (s.loadCfg c).cur = s.cur := rfl
@[simp] theorem loadCfg_entPending (s : State) (c : Byte) : (s.loadCfg c).entPending = s.entPending := rfl
@[simp] theorem loadCfg_resp (s : State) (c : Byte) : (s.loadCfg c).resp = s.resp := rfl
@[simp] theorem loadCfg_entAnswer (s : State) (c : Byte) : (s.loadCfg c).entAnswer = s.entAnswer := rfl
@[simp] theorem loadCfg_entRequests (s : State) (c : Byte) : (s.loadCfg c).entRequests = s.entRequests := rfl
@[simp] theorem loadCfg_offers (s : State) (c : Byte) : (s.loadCfg c).offers = s.offers := rfl
@[simp] theorem loadCfg_taken (s : State) (c : Byte) : (s.loadCfg c).taken = s.taken := rfl
@[simp] theorem loadCfg_accepted (s : State) (c : Byte) : (s.loadCfg c).accepted = s.accepted := rfl
@[simp] theorem loadCfg_turns (s : State) (c : Byte) : (s.loadCfg c).turns = s.turns := rfl

/-! ### respond -/

@[simp] theorem respond_keyBytes (s : State) (r : Bytes) : (s.respond r).keyBytes = s.keyBytes := rfl
@[simp] theorem respond_keyLen (s : State) (r : Bytes) : (s.respond r).keyLen = s.keyLen := rfl
@[simp] theorem respond_keyValid (s : State) (r : Bytes) : (s.respond r).keyValid = s.keyValid := rfl
@[simp] theorem respond_cfg (s : State) (r : Bytes) : (s.respond r).cfg = s.cfg := rfl
@[simp] theorem respond_phase (s : State) (r : Bytes) : (s.respond r).phase = .respond := rfl
@[simp] theorem respond_cur (s : State) (r : Bytes) : (s.respond r).cur = s.cur := rfl
@[simp] theorem respond_entPending (s : State) (r : Bytes) : (s.respond r).entPending = s.entPending := rfl
@[simp] theorem respond_resp (s : State) (r : Bytes) : (s.respond r).resp = some r := rfl
@[simp] theorem respond_entAnswer (s : State) (r : Bytes) : (s.respond r).entAnswer = none := rfl
@[simp] theorem respond_entRequests (s : State) (r : Bytes) : (s.respond r).entRequests = s.entRequests := rfl
@[simp] theorem respond_offers (s : State) (r : Bytes) : (s.respond r).offers = s.offers := rfl
@[simp] theorem respond_taken (s : State) (r : Bytes) : (s.respond r).taken = s.taken := rfl
@[simp] theorem respond_accepted (s : State) (r : Bytes) : (s.respond r).accepted = s.accepted := rfl
@[simp] theorem respond_turns (s : State) (r : Bytes) : (s.respond r).turns = s.turns := rfl

/-! ### requestEntropy -/

@[simp] theorem requestEntropy_keyBytes (s : State) (f : Frame) : (s.requestEntropy f).keyBytes = s.keyBytes := rfl
@[simp] theorem requestEntropy_keyLen (s : State) (f : Frame) : (s.requestEntropy f).keyLen = s.keyLen := rfl
@[simp] theorem requestEntropy_keyValid (s : State) (f : Frame) : (s.requestEntropy f).keyValid = s.keyValid := rfl
@[simp] theorem requestEntropy_cfg (s : State) (f : Frame) : (s.requestEntropy f).cfg = s.cfg := rfl
@[simp] theorem requestEntropy_phase (s : State) (f : Frame) : (s.requestEntropy f).phase = .waitEnt := rfl
@[simp] theorem requestEntropy_cur (s : State) (f : Frame) : (s.requestEntropy f).cur = s.cur.map fun c => { c with frame := some f } := rfl
@[simp] theorem requestEntropy_entPending (s : State) (f : Frame) : (s.requestEntropy f).entPending = true := rfl
@[simp] theorem requestEntropy_resp (s : State) (f : Frame) : (s.requestEntropy f).resp = s.resp := rfl
@[simp] theorem requestEntropy_entAnswer (s : State) (f : Frame) : (s.requestEntropy f).entAnswer = s.entAnswer := rfl
@[simp] theorem requestEntropy_entRequests (s : State) (f : Frame) : (s.requestEntropy f).entRequests = s.entRequests + 1 := rfl
@[simp] theorem requestEntropy_offers (s : State) (f : Frame) : (s.requestEntropy f).offers = s.offers := rfl
@[simp] theorem requestEntropy_taken (s : State) (f : Frame) : (s.requestEntropy f).taken = s.taken := rfl
@[simp] theorem requestEntropy_accepted (s : State) (f : Frame) : (s.requestEntropy f).accepted = s.accepted := rfl
@[simp] theorem requestEntropy_turns (s : State) (f : Frame) : (s.requestEntropy f).turns = s.turns := rfl

/-! ### accept -/

@[simp] theorem accept_keyBytes (s : State) (msg : Bytes) : (s.accept msg).keyBytes = s.keyBytes := rfl
@[simp] theorem accept_keyLen (s : State) (msg : Bytes) : (s.accept msg).keyLen = s.keyLen := rfl
@[simp] theorem accept_keyValid (s : State) (msg : Bytes) : (s.accept msg).keyValid = s.keyValid := rfl
@[simp] theorem accept_cfg (s : State) (msg : Bytes) : (s.accept msg).cfg = s.cfg := rfl
@[simp] theorem accept_phase (s : State) (msg : Bytes) : (s.accept msg).phase = .exec := rfl
@[simp] theorem accept_cur (s : State) (msg : Bytes) : (s.accept msg).cur = some ⟨msg, none⟩ := rfl
@[simp] theorem accept_entPending (s : State) (msg : Bytes) : (s.accept msg).entPending = s.entPending := rfl
@[simp] theorem accept_resp (s : State) (msg : Bytes) : (s.accept msg).resp = s.resp := rfl
@[simp] theorem accept_entAnswer (s : State) (msg : Bytes) : (s.accept msg).entAnswer = s.entAnswer := rfl
@[simp] theorem accept_entRequests (s : State) (msg : Bytes) : (s.accept msg).entRequests = s.entRequests := rfl
@[simp] theorem accept_offers (s : State) (msg : Bytes) : (s.accept msg).offers = s.offers := rfl
@[simp] theorem accept_taken (s : State) (msg : Bytes) : (s.accept msg).taken = s.taken := rfl
@[simp] theorem accept_accepted (s : State) (msg : Bytes) : (s.accept msg).accepted = s.accepted ++ [msg] := rfl
@[simp] theorem accept_turns (s : State) (msg : Bytes) : (s.accept msg).turns = s.turns := rfl

/-! ### hostSend -/

@[simp] theorem hostSend_keyBytes (s : State) (msg : Bytes) : (s.hostSend msg).keyBytes = s.keyBytes := rfl
@[simp] theorem hostSend_keyLen (s : State) (msg : Bytes) : (s.hostSend msg).keyLen = s.keyLen := rfl
@[simp] theorem hostSend_keyValid (s : State) (msg : Bytes) : (s.hostSend msg).keyValid = s.keyValid := rfl
@[simp] theorem hostSend_cfg (s : State) (msg : Bytes) : (s.hostSend msg).cfg = s.cfg := rfl
@[simp] theorem hostSend_phase (s : State) (msg : Bytes) : (s.hostSend msg).phase = s.phase := rfl
@[simp] theorem hostSend_cur (s : State) (msg : Bytes) : (s.hostSend msg).cur = s.cur := rfl
@[simp] theorem hostSend_entPending (s : State) (msg : Bytes) : (s.hostSend msg).entPending = s.entPending := rfl
@[simp] theorem hostSend_resp (s : State) (msg : Bytes) : (s.hostSend msg).resp = s.resp := rfl
@[simp] theorem hostSend_entAnswer (s : State) (msg : Bytes) : (s.hostSend msg).entAnswer = s.entAnswer := rfl
@[simp] theorem hostSend_entRequests (s : State) (msg : Bytes) : (s.hostSend msg).entRequests = s.entRequests := rfl
@[simp] theorem hostSend_offers (s : State) (msg : Bytes) : (s.hostSend msg).offers = s.offers ++ [msg] := rfl
@[simp] theorem hostSend_taken (s : State) (msg : Bytes) : (s.hostSend msg).taken = s.taken := rfl
@[simp] theorem hostSend_accepted (s : State) (msg : Bytes) : (s.hostSend msg).accepted = s.accepted := rfl
@[simp] theorem hostSend_turns (s : State) (msg : Bytes) : (s.hostSend msg).turns = s.turns := rfl

/-! ### release -/

@[simp] theorem release_keyBytes (s : State) (r : Bytes) : (s.release r).keyBytes = s.keyBytes := rfl
@[simp] theorem release_keyLen (s : State) (r : Bytes) : (s.release r).keyLen = s.keyLen := rfl
@[simp] theorem release_keyValid (s : State) (r : Bytes) : (s.release r).keyValid = s.keyValid := rfl
@[simp] theorem release_cfg (s : State) (r : Bytes) : (s.release r).cfg = s.cfg := rfl
@[simp] theorem release_phase (s : State) (r : Bytes) : (s.release r).phase = .idle := rfl
@[simp] theorem release_cur (s : State) (r : Bytes) : (s.release r).cur = none := rfl
@[simp] theorem release_entPending (s : State) (r : Bytes) : (s.release r).entPending = s.entPending := rfl
@[simp] theorem release_resp (s : State) (r : Bytes) : (s.release r).resp = none := rfl
@[simp] theorem release_entAnswer (s : State) (r : Bytes) : (s.release r).entAnswer = s.entAnswer := rfl
@[simp] theorem release_entRequests (s : State) (r : Bytes) : (s.release r).entRequests = s.entRequests := rfl
@[simp] theorem release_offers (s : State) (r : Bytes) : (s.release r).offers = s.offers := rfl
@[simp] theorem release_taken (s : State) (r : Bytes) : (s.release r).taken = s.taken ++ [r] := rfl
@[simp] theorem release_accepted (s : State) (r : Bytes) : (s.release r).accepted = s.accepted := rfl
@[simp] theorem release_turns (s : State) (r : Bytes) : (s.release r).turns = s.turns := rfl

/-! ### liftHold -/

@[simp] theorem liftHold_keyBytes (s : State) (a : EntropyAnswer) : (s.liftHold a).keyBytes = s.keyBytes := rfl
@[simp] theorem liftHold_keyLen (s : State) (a : EntropyAnswer) : (s.liftHold a).keyLen = s.keyLen := rfl
@[simp] theorem liftHold_keyValid (s : State) (a : EntropyAnswer) : (s.liftHold a).keyValid = s.keyValid := rfl
@[simp] theorem liftHold_cfg (s : State) (a : EntropyAnswer) : (s.liftHold a).cfg = s.cfg := rfl
@[simp] theorem liftHold_phase (s : State) (a : EntropyAnswer) : (s.liftHold a).phase = .exec := rfl
@[simp] theorem liftHold_cur (s : State) (a : EntropyAnswer) : (s.liftHold a).cur = s.cur := rfl
@[simp] theorem liftHold_entPending (s : State) (a : EntropyAnswer) : (s.liftHold a).entPending = false := rfl
@[simp] theorem liftHold_resp (s : State) (a : EntropyAnswer) : (s.liftHold a).resp = s.resp := rfl
@[simp] theorem liftHold_entAnswer (s : State) (a : EntropyAnswer) : (s.liftHold a).entAnswer = some a := rfl
@[simp] theorem liftHold_entRequests (s : State) (a : EntropyAnswer) : (s.liftHold a).entRequests = s.entRequests := rfl
@[simp] theorem liftHold_offers (s : State) (a : EntropyAnswer) : (s.liftHold a).offers = s.offers := rfl
@[simp] theorem liftHold_taken (s : State) (a : EntropyAnswer) : (s.liftHold a).taken = s.taken := rfl
@[simp] theorem liftHold_accepted (s : State) (a : EntropyAnswer) : (s.liftHold a).accepted = s.accepted := rfl
@[simp] theorem liftHold_turns (s : State) (a : EntropyAnswer) : (s.liftHold a).turns = s.turns := rfl

/-! ### assertReset -/

@[simp] theorem assertReset_keyBytes (s : State) : (s.assertReset).keyBytes = State.reset.keyBytes := rfl
@[simp] theorem assertReset_keyLen (s : State) : (s.assertReset).keyLen = State.reset.keyLen := rfl
@[simp] theorem assertReset_keyValid (s : State) : (s.assertReset).keyValid = State.reset.keyValid := rfl
@[simp] theorem assertReset_cfg (s : State) : (s.assertReset).cfg = State.reset.cfg := rfl
@[simp] theorem assertReset_phase (s : State) : (s.assertReset).phase = State.reset.phase := rfl
@[simp] theorem assertReset_cur (s : State) : (s.assertReset).cur = State.reset.cur := rfl
@[simp] theorem assertReset_entPending (s : State) : (s.assertReset).entPending = State.reset.entPending := rfl
@[simp] theorem assertReset_resp (s : State) : (s.assertReset).resp = State.reset.resp := rfl
@[simp] theorem assertReset_entAnswer (s : State) : (s.assertReset).entAnswer = State.reset.entAnswer := rfl
@[simp] theorem assertReset_entRequests (s : State) : (s.assertReset).entRequests = s.entRequests := rfl
@[simp] theorem assertReset_offers (s : State) : (s.assertReset).offers = s.offers := rfl
@[simp] theorem assertReset_taken (s : State) : (s.assertReset).taken = s.taken := rfl
@[simp] theorem assertReset_accepted (s : State) : (s.assertReset).accepted = s.accepted := rfl
@[simp] theorem assertReset_turns (s : State) : (s.assertReset).turns = s.turns := rfl

/-! ### withOffers -/

@[simp] theorem withOffers_keyBytes (s : State) (msgs : List Bytes) : (s.withOffers msgs).keyBytes = s.keyBytes := rfl
@[simp] theorem withOffers_keyLen (s : State) (msgs : List Bytes) : (s.withOffers msgs).keyLen = s.keyLen := rfl
@[simp] theorem withOffers_keyValid (s : State) (msgs : List Bytes) : (s.withOffers msgs).keyValid = s.keyValid := rfl
@[simp] theorem withOffers_cfg (s : State) (msgs : List Bytes) : (s.withOffers msgs).cfg = s.cfg := rfl
@[simp] theorem withOffers_phase (s : State) (msgs : List Bytes) : (s.withOffers msgs).phase = s.phase := rfl
@[simp] theorem withOffers_cur (s : State) (msgs : List Bytes) : (s.withOffers msgs).cur = s.cur := rfl
@[simp] theorem withOffers_entPending (s : State) (msgs : List Bytes) : (s.withOffers msgs).entPending = s.entPending := rfl
@[simp] theorem withOffers_resp (s : State) (msgs : List Bytes) : (s.withOffers msgs).resp = s.resp := rfl
@[simp] theorem withOffers_entAnswer (s : State) (msgs : List Bytes) : (s.withOffers msgs).entAnswer = s.entAnswer := rfl
@[simp] theorem withOffers_entRequests (s : State) (msgs : List Bytes) : (s.withOffers msgs).entRequests = s.entRequests := rfl
@[simp] theorem withOffers_offers (s : State) (msgs : List Bytes) : (s.withOffers msgs).offers = msgs := rfl
@[simp] theorem withOffers_taken (s : State) (msgs : List Bytes) : (s.withOffers msgs).taken = s.taken := rfl
@[simp] theorem withOffers_accepted (s : State) (msgs : List Bytes) : (s.withOffers msgs).accepted = s.accepted := rfl
@[simp] theorem withOffers_turns (s : State) (msgs : List Bytes) : (s.withOffers msgs).turns = s.turns := rfl
@[simp] theorem withOffers_key (s : State) (msgs : List Bytes) : (s.withOffers msgs).key = s.key := rfl
@[simp] theorem withOffers_chkPre (s : State) (msgs : List Bytes) : (s.withOffers msgs).chkPre = s.chkPre := rfl
@[simp] theorem withOffers_chkLen (s : State) (msgs : List Bytes) : (s.withOffers msgs).chkLen = s.chkLen := rfl

/-! ### withTurns -/

@[simp] theorem withTurns_keyBytes (s : State) (ts : List Turn) : (s.withTurns ts).keyBytes = s.keyBytes := rfl
@[simp] theorem withTurns_keyLen (s : State) (ts : List Turn) : (s.withTurns ts).keyLen = s.keyLen := rfl
@[simp] theorem withTurns_keyValid (s : State) (ts : List Turn) : (s.withTurns ts).keyValid = s.keyValid := rfl
@[simp] theorem withTurns_cfg (s : State) (ts : List Turn) : (s.withTurns ts).cfg = s.cfg := rfl
@[simp] theorem withTurns_phase (s : State) (ts : List Turn) : (s.withTurns ts).phase = s.phase := rfl
@[simp] theorem withTurns_cur (s : State) (ts : List Turn) : (s.withTurns ts).cur = s.cur := rfl
@[simp] theorem withTurns_entPending (s : State) (ts : List Turn) : (s.withTurns ts).entPending = s.entPending := rfl
@[simp] theorem withTurns_resp (s : State) (ts : List Turn) : (s.withTurns ts).resp = s.resp := rfl
@[simp] theorem withTurns_entAnswer (s : State) (ts : List Turn) : (s.withTurns ts).entAnswer = s.entAnswer := rfl
@[simp] theorem withTurns_entRequests (s : State) (ts : List Turn) : (s.withTurns ts).entRequests = s.entRequests := rfl
@[simp] theorem withTurns_offers (s : State) (ts : List Turn) : (s.withTurns ts).offers = s.offers := rfl
@[simp] theorem withTurns_taken (s : State) (ts : List Turn) : (s.withTurns ts).taken = s.taken := rfl
@[simp] theorem withTurns_accepted (s : State) (ts : List Turn) : (s.withTurns ts).accepted = s.accepted := rfl
@[simp] theorem withTurns_turns (s : State) (ts : List Turn) : (s.withTurns ts).turns = ts := rfl

/-! ### The key and the checks of CFG, through the updates that leave them -/

@[simp] theorem loadCfg_key (s : State) (c : Byte) : (s.loadCfg c).key = s.key := rfl
@[simp] theorem respond_key (s : State) (r : Bytes) : (s.respond r).key = s.key := rfl
@[simp] theorem requestEntropy_key (s : State) (f : Frame) : (s.requestEntropy f).key = s.key := rfl
@[simp] theorem accept_key (s : State) (msg : Bytes) : (s.accept msg).key = s.key := rfl
@[simp] theorem hostSend_key (s : State) (msg : Bytes) : (s.hostSend msg).key = s.key := rfl
@[simp] theorem release_key (s : State) (r : Bytes) : (s.release r).key = s.key := rfl
@[simp] theorem liftHold_key (s : State) (a : EntropyAnswer) : (s.liftHold a).key = s.key := rfl
@[simp] theorem withTurns_key (s : State) (ts : List Turn) : (s.withTurns ts).key = s.key := rfl
@[simp] theorem loadKey_chkPre (s : State) (key : Bytes) : (s.loadKey key).chkPre = s.chkPre := by
  rw [State.chkPre, State.chkPre, loadKey_cfg]
@[simp] theorem respond_chkPre (s : State) (r : Bytes) : (s.respond r).chkPre = s.chkPre := rfl
@[simp] theorem requestEntropy_chkPre (s : State) (f : Frame) : (s.requestEntropy f).chkPre = s.chkPre := rfl
@[simp] theorem accept_chkPre (s : State) (msg : Bytes) : (s.accept msg).chkPre = s.chkPre := rfl
@[simp] theorem hostSend_chkPre (s : State) (msg : Bytes) : (s.hostSend msg).chkPre = s.chkPre := rfl
@[simp] theorem release_chkPre (s : State) (r : Bytes) : (s.release r).chkPre = s.chkPre := rfl
@[simp] theorem liftHold_chkPre (s : State) (a : EntropyAnswer) : (s.liftHold a).chkPre = s.chkPre := rfl
@[simp] theorem withTurns_chkPre (s : State) (ts : List Turn) : (s.withTurns ts).chkPre = s.chkPre := rfl
@[simp] theorem loadKey_chkLen (s : State) (key : Bytes) : (s.loadKey key).chkLen = s.chkLen := by
  rw [State.chkLen, State.chkLen, loadKey_cfg]
@[simp] theorem respond_chkLen (s : State) (r : Bytes) : (s.respond r).chkLen = s.chkLen := rfl
@[simp] theorem requestEntropy_chkLen (s : State) (f : Frame) : (s.requestEntropy f).chkLen = s.chkLen := rfl
@[simp] theorem accept_chkLen (s : State) (msg : Bytes) : (s.accept msg).chkLen = s.chkLen := rfl
@[simp] theorem hostSend_chkLen (s : State) (msg : Bytes) : (s.hostSend msg).chkLen = s.chkLen := rfl
@[simp] theorem release_chkLen (s : State) (r : Bytes) : (s.release r).chkLen = s.chkLen := rfl
@[simp] theorem liftHold_chkLen (s : State) (a : EntropyAnswer) : (s.liftHold a).chkLen = s.chkLen := rfl
@[simp] theorem withTurns_chkLen (s : State) (ts : List Turn) : (s.withTurns ts).chkLen = s.chkLen := rfl

@[simp] theorem withTurns_withTurns (s : State) (ts us : List Turn) : (s.withTurns ts).withTurns us = s.withTurns us :=
  rfl

@[simp] theorem withTurns_self (s : State) : s.withTurns s.turns = s := rfl

/-- Loading a key that fits makes it the current key. -/
theorem loadKey_key (s : State) (key : Bytes) (h : key.length ≤ Config.keyMaxBytes) : (s.loadKey key).key = key := by
  have hl : (Fin.ofNat (Config.keyMaxBytes + 1) key.length).val = key.length :=
    Nat.mod_eq_of_lt (Nat.lt_succ_of_le h)
  have h64 : key.length ≤ 64 := h
  rw [State.key, loadKey_keyLen, hl]
  apply List.ext_getElem
  · simpa [loadKeyBytes] using h64
  · intro i h1 h2
    simp [loadKeyBytes, byteAt, h2]

@[simp] theorem reset_key : State.reset.key = [] := rfl

@[simp] theorem assertReset_key (s : State) : s.assertReset.key = [] := rfl

end Sys2Proof.Machine
end

