-- ==== Sys2Proof/Laws/Ops.lean ====
section
/-! SUPPORT. What each meaning and each shared operation can answer, said once: a proof about a command cites these
instead of unfolding it. -/

namespace Sys2Proof.Machine

theorem execSetkey_cases {key : Bytes} {s t : State} (h : execSetkey key s = .next t) :
    (key.length ≤ Config.keyMaxBytes ∧ t = (s.loadKey key).respond [okCode]) ∨
    (Config.keyMaxBytes < key.length ∧ t = s.respond [Err.keyTooLong.code]) := by
  unfold execSetkey at h
  rw [respondOk_eq, raise_eq] at h
  split at h
  · exact .inr ⟨‹_›, (Host.Outcome.next.inj h).symm⟩
  · exact .inl ⟨Nat.le_of_not_lt ‹_›, (Host.Outcome.next.inj h).symm⟩

theorem execSetcfg_cases {c : Byte} {s t : State} (h : execSetcfg c s = .next t) :
    (cfgReserved c = 0#6 ∧ t = (s.loadCfg c).respond [okCode, c]) ∨
    (cfgReserved c ≠ 0#6 ∧ t = s.respond [Err.malformedCommand.code]) := by
  unfold execSetcfg at h
  split at h <;> cases h
  · exact .inr ⟨‹_›, rfl⟩
  · exact .inl ⟨Decidable.not_not.mp ‹_›, rfl⟩

theorem execDerive_cases {nonce : Nonce} {s t : State} (h : execDerive nonce s = .next t) :
    (s.keyValid = false ∧ t = s.respond [Err.keyNotLoaded.code]) ∨
    (s.keyValid = true ∧ t = s.respond (okCode :: maskVector s.key nonce)) := by
  unfold execDerive at h
  split at h <;> cases h
  · exact .inl ⟨‹_›, rfl⟩
  · exact .inr ⟨Bool.eq_true_of_not_eq_false ‹_›, rfl⟩

theorem execEncode_cases {streamId seq : U32} {closing : Byte} {payload : Bytes} {s t : State}
    (h : execEncode streamId seq closing payload s = .next t) :
    (s.keyValid = false ∧ t = s.respond [Err.keyNotLoaded.code]) ∨
    (s.keyValid = true ∧ Config.maxPayloadBytes < payload.length ∧ t = s.respond [Err.payloadTooLarge.code]) ∨
    (s.keyValid = true ∧ payload.length ≤ Config.maxPayloadBytes ∧
      ((s.entAnswer = none ∧ t = s.requestEntropy ⟨streamId, seq, closing, payload⟩) ∨
       (s.entAnswer = some .fail ∧ t = s.respond [Err.entropyUnavailable.code]) ∨
       ∃ nonce, s.entAnswer = some (.bytes nonce) ∧
         t = s.respond (okCode :: enc s.key nonce ⟨streamId, seq, closing, payload⟩))) := by
  unfold execEncode at h
  split at h
  · cases h; exact .inl ⟨‹_›, rfl⟩
  · have hv : s.keyValid = true := Bool.eq_true_of_not_eq_false ‹_›
    split at h
    · cases h; exact .inr (.inl ⟨hv, ‹_›, rfl⟩)
    · rename_i hn
      cases h
      refine .inr (.inr ⟨hv, Nat.le_of_not_lt hn, ?_⟩)
      unfold encodeWithEntropy
      split
      · exact .inl ⟨‹_›, rfl⟩
      · exact .inr (.inl ⟨‹_›, rfl⟩)
      · exact .inr (.inr ⟨_, ‹_›, rfl⟩)

theorem execDecode_cases {record : Bytes} {s t : State} (h : execDecode record s = .next t) :
    (s.keyValid = false ∧ t = s.respond [Err.keyNotLoaded.code]) ∨
    (s.keyValid = true ∧
      ((∃ e, validate s.chkPre s.chkLen record = some e ∧ t = s.respond [e.code]) ∨
       (validate s.chkPre s.chkLen record = none ∧ t = s.respond (okCode :: frameImage (dec s.key record))))) := by
  unfold execDecode at h
  split at h
  · cases h; exact .inl ⟨‹_›, rfl⟩
  · refine .inr ⟨Bool.eq_true_of_not_eq_false ‹_›, ?_⟩
    split at h <;> cases h
    · exact .inl ⟨_, ‹_›, rfl⟩
    · exact .inr ⟨‹_›, rfl⟩

/-- A command completes with a response, but for the ENCODE that asks ENTROPY for a nonce. -/
theorem exec_cases {i : Instr} {s t : State} (h : exec i s = .next t) :
    (∃ r, t = s.respond r) ∨
    (∃ key, i = .setkey key ∧ key.length ≤ Config.keyMaxBytes ∧ t = (s.loadKey key).respond [okCode]) ∨
    (∃ c, i = .setcfg c ∧ cfgReserved c = 0#6 ∧ t = (s.loadCfg c).respond [okCode, c]) ∨
    (∃ f : Frame, i = .encode f.streamId f.seq f.closing f.payload ∧ s.keyValid = true ∧
      f.payload.length ≤ Config.maxPayloadBytes ∧ s.entAnswer = none ∧ t = s.requestEntropy f) := by
  cases i with
  | setkey key =>
    rcases execSetkey_cases h with ⟨hk, rfl⟩ | ⟨-, rfl⟩
    · exact .inr (.inl ⟨key, rfl, hk, rfl⟩)
    · exact .inl ⟨_, rfl⟩
  | setcfg c =>
    rcases execSetcfg_cases h with ⟨hc, rfl⟩ | ⟨-, rfl⟩
    · exact .inr (.inr (.inl ⟨c, rfl, hc, rfl⟩))
    · exact .inl ⟨_, rfl⟩
  | derive nonce =>
    rcases execDerive_cases h with ⟨-, rfl⟩ | ⟨-, rfl⟩ <;> exact .inl ⟨_, rfl⟩
  | encode streamId seq closing payload =>
    rcases execEncode_cases h with ⟨-, rfl⟩ | ⟨-, -, rfl⟩ | ⟨hv, hn, ⟨ha, rfl⟩ | ⟨-, rfl⟩ | ⟨_, -, rfl⟩⟩
    · exact .inl ⟨_, rfl⟩
    · exact .inl ⟨_, rfl⟩
    · exact .inr (.inr (.inr ⟨⟨streamId, seq, closing, payload⟩, rfl, hv, hn, ha, rfl⟩))
    · exact .inl ⟨_, rfl⟩
    · exact .inl ⟨_, rfl⟩
  | decode record =>
    rcases execDecode_cases h with ⟨-, rfl⟩ | ⟨-, ⟨_, -, rfl⟩ | ⟨-, rfl⟩⟩ <;> exact .inl ⟨_, rfl⟩

/-- A meaning never faults and never refuses. -/
theorem exec_answers (i : Instr) (s : State) : ∃ t, exec i s = .next t := by
  cases i <;> simp only [exec, execSetkey, execSetcfg, execDerive, execEncode, execDecode]
  all_goals repeat' split
  all_goals exact ⟨_, rfl⟩

/-- HOST takes the response held, or nothing happens. -/
theorem hostTake_cases (s : State) :
    (∃ r, s.phase = .respond ∧ s.resp = some r ∧ s.hostTake = s.release r) ∨
    ((s.phase ≠ .respond ∨ s.resp = none) ∧ s.hostTake = s) := by
  unfold State.hostTake
  split
  · exact .inl ⟨_, ‹_›, ‹_›, rfl⟩
  · rename_i h
    refine .inr ⟨?_, rfl⟩
    by_cases hp : s.phase = .respond
    · cases hr : s.resp with
      | none => exact .inr rfl
      | some r => exact absurd hr (h r hp)
    · exact .inl hp

/-- An answer lifts the hold it was asked for, or nothing happens. -/
theorem entropyAnswer_cases (req : Nat) (a : EntropyAnswer) (s : State) :
    (s.phase = .waitEnt ∧ req = s.entRequests ∧ s.entropyAnswer req a = s.liftHold a) ∨
    (¬(s.phase = .waitEnt ∧ req = s.entRequests) ∧ s.entropyAnswer req a = s) := by
  unfold State.entropyAnswer
  split
  · rename_i h
    exact .inl ⟨h.1, h.2, rfl⟩
  · exact .inr ⟨‹_›, rfl⟩

/-- The step in IDLE accepts the oldest waiting message, or nothing happens. -/
theorem acceptNext_cases (s : State) :
    (s.offers = [] ∧ s.acceptNext = s) ∨
    (∃ msg rest, s.offers = msg :: rest ∧ s.acceptNext = (s.withOffers rest).accept msg) := by
  unfold State.acceptNext
  split
  · exact .inl ⟨‹_›, rfl⟩
  · exact .inr ⟨_, _, ‹_›, rfl⟩

end Sys2Proof.Machine
end

