-- ==== Sys2Proof/Laws/PerInstr.lean ====
section
/-! SUPPORT. A law of every command as syntax, proved constructor by constructor. -/

namespace Sys2Proof

/-- The length L of a command's message, from the "legal L" column of 30_encoding.md R86. -/
def Laws.messageLength : Instr → Nat
  | .setkey key => 1 + key.length
  | .setcfg _ => 2
  | .derive _ => 4
  | .encode _ _ _ payload => 10 + payload.length
  | .decode record => 1 + record.length

/-- A command's message begins with its opcode and has the length its format gives (R86 to R91). -/
def Laws.EncodeShape.Statement (i : Instr) : Prop :=
  opcodeOf (encode i) = i.opcode ∧ (encode i).length = Laws.messageLength i

theorem Laws.EncodeShape.setkey (key : Bytes) : Laws.EncodeShape.Statement (.setkey key) :=
  ⟨rfl, by simp [encode, Laws.messageLength, Nat.add_comm]⟩

theorem Laws.EncodeShape.setcfg (c : Byte) : Laws.EncodeShape.Statement (.setcfg c) := ⟨rfl, rfl⟩

theorem Laws.EncodeShape.derive (nonce : Nonce) : Laws.EncodeShape.Statement (.derive nonce) := ⟨rfl, rfl⟩

theorem Laws.EncodeShape.encode (streamId seq : U32) (closing : Byte) (payload : Bytes) :
    Laws.EncodeShape.Statement (.encode streamId seq closing payload) :=
  ⟨rfl, by simp [Sys2Proof.encode, Laws.messageLength]; omega⟩

theorem Laws.EncodeShape.decode (record : Bytes) : Laws.EncodeShape.Statement (.decode record) :=
  ⟨rfl, by simp [Sys2Proof.encode, Laws.messageLength, Nat.add_comm]⟩

end Sys2Proof
end

