-- ==== Sys2Proof/Laws/Regs.lean ====
section
/-! SUPPORT. What each update does to the registers as commands see them, and to the observation of a run. -/

namespace Sys2Proof.Machine

@[simp] theorem respond_regs (s : State) (r : Bytes) : (s.respond r).regs = s.regs := by
  simp only [State.regs, respond_keyValid, respond_key, respond_cfg]
@[simp] theorem requestEntropy_regs (s : State) (f : Frame) : (s.requestEntropy f).regs = s.regs := by
  simp only [State.regs, requestEntropy_keyValid, requestEntropy_key, requestEntropy_cfg]
@[simp] theorem accept_regs (s : State) (msg : Bytes) : (s.accept msg).regs = s.regs := by
  simp only [State.regs, accept_keyValid, accept_key, accept_cfg]
@[simp] theorem hostSend_regs (s : State) (msg : Bytes) : (s.hostSend msg).regs = s.regs := by
  simp only [State.regs, hostSend_keyValid, hostSend_key, hostSend_cfg]
@[simp] theorem release_regs (s : State) (r : Bytes) : (s.release r).regs = s.regs := by
  simp only [State.regs, release_keyValid, release_key, release_cfg]
@[simp] theorem liftHold_regs (s : State) (a : EntropyAnswer) : (s.liftHold a).regs = s.regs := by
  simp only [State.regs, liftHold_keyValid, liftHold_key, liftHold_cfg]
@[simp] theorem withOffers_regs (s : State) (msgs : List Bytes) : (s.withOffers msgs).regs = s.regs := by
  simp only [State.regs, withOffers_keyValid, withOffers_key, withOffers_cfg]
@[simp] theorem withTurns_regs (s : State) (ts : List Turn) : (s.withTurns ts).regs = s.regs := by
  simp only [State.regs, withTurns_keyValid, withTurns_key, withTurns_cfg]

@[simp] theorem loadCfg_regs (s : State) (c : Byte) : (s.loadCfg c).regs = ⟨s.keyValid, s.key, c⟩ := by
  simp only [State.regs, loadCfg_keyValid, loadCfg_key, loadCfg_cfg]

/-- Loading a key that fits makes it the current key. -/
theorem loadKey_regs (s : State) (key : Bytes) (h : key.length ≤ Config.keyMaxBytes) :
    (s.loadKey key).regs = ⟨true, key, s.cfg⟩ := by
  simp only [State.regs, loadKey_keyValid, loadKey_key s key h, loadKey_cfg]

@[simp] theorem assertReset_regs (s : State) : s.assertReset.regs = State.reset.regs := by
  simp only [State.regs, assertReset_keyValid, assertReset_key, assertReset_cfg, reset_key]

@[simp] theorem respond_observation (s : State) (r : Bytes) : (s.respond r).observation = s.observation := rfl
@[simp] theorem requestEntropy_observation (s : State) (f : Frame) : (s.requestEntropy f).observation = s.observation := rfl
@[simp] theorem accept_observation (s : State) (msg : Bytes) : (s.accept msg).observation = s.observation := rfl
@[simp] theorem hostSend_observation (s : State) (msg : Bytes) : (s.hostSend msg).observation = s.observation := rfl
@[simp] theorem liftHold_observation (s : State) (a : EntropyAnswer) : (s.liftHold a).observation = s.observation := rfl
@[simp] theorem withOffers_observation (s : State) (msgs : List Bytes) : (s.withOffers msgs).observation = s.observation := rfl
@[simp] theorem withTurns_observation (s : State) (ts : List Turn) : (s.withTurns ts).observation = s.observation := rfl

end Sys2Proof.Machine
end

