-- ==== Sys2Proof/Laws/Step.lean ====
section
/-! SUPPORT. What a step can do, said once: every claim about steps is derived from these inversions. -/

namespace Sys2Proof.Machine

/-- What the CFC's own step can do. -/
theorem cfcStep_cases {s t : State} (h : cfcStep s = .next t) :
    (s.phase = .idle ∧ s.offers = [] ∧ t = s) ∨
    (s.phase = .idle ∧ ∃ msg rest, s.offers = msg :: rest ∧ t = (s.withOffers rest).accept msg) ∨
    (s.phase = .exec ∧ ∃ c e, s.cur = some c ∧ decode c.msg = .error e ∧ t = s.respond [e.code]) ∨
    (s.phase = .exec ∧ ∃ c i, s.cur = some c ∧ decode c.msg = .instr i ∧ exec i s = .next t) ∨
    ((s.phase = .waitEnt ∨ s.phase = .respond) ∧ t = s) := by
  unfold cfcStep at h
  split at h
  · cases h
    rcases acceptNext_cases s with ⟨ho, he⟩ | ⟨msg, rest, ho, he⟩
    · exact .inl ⟨‹_›, ho, he⟩
    · exact .inr (.inl ⟨‹_›, msg, rest, ho, he⟩)
  · rename_i hp
    unfold execStep State.fetch at h
    cases hc : s.cur with
    | none => simp [hc] at h
    | some c =>
      cases hd : decode c.msg with
      | error e =>
        simp only [hc, hd, Option.map_some] at h
        cases h
        exact .inr (.inr (.inl ⟨hp, c, e, rfl, hd, rfl⟩))
      | instr i =>
        simp only [hc, hd, Option.map_some] at h
        exact .inr (.inr (.inr (.inl ⟨hp, c, i, rfl, hd, h⟩)))
  · cases h; exact .inr (.inr (.inr (.inr ⟨.inl ‹_›, rfl⟩)))
  · cases h; exact .inr (.inr (.inr (.inr ⟨.inr ‹_›, rfl⟩)))

/-- It is the CFC's turn. -/
def CfcMoves (s : State) : Prop := s.turns = [] ∨ ∃ ts, s.turns = .cfc :: ts

/-- On its turn the CFC takes its own step, on the state without that turn. -/
theorem step_of_cfcMoves {s : State} (h : CfcMoves s) : step s = cfcStep (s.withTurns s.turns.tail) := by
  rcases h with h | ⟨ts, h⟩ <;> unfold step <;> simp only [h, List.tail]
  rw [← h, withTurns_self]

/-- What a step can do: the agent whose turn it is moves. -/
theorem step_cases {s t : State} (h : step s = .next t) :
    (CfcMoves s ∧ cfcStep (s.withTurns s.turns.tail) = .next t) ∨
    (∃ msg ts, s.turns = .hostSend msg :: ts ∧ t = (s.withTurns ts).hostSend msg) ∨
    (∃ ts, s.turns = .hostTake :: ts ∧ t = (s.withTurns ts).hostTake) ∨
    (∃ req a ts, s.turns = .entropyAnswer req a :: ts ∧ t = (s.withTurns ts).entropyAnswer req a) ∨
    (∃ ts, s.turns = .reset :: ts ∧ t = (s.withTurns ts).assertReset) := by
  cases ht : s.turns with
  | nil => exact .inl ⟨.inl ht, by rw [← ht, ← step_of_cfcMoves (.inl ht), h]⟩
  | cons a ts =>
    have hs := h
    unfold step at hs
    rw [ht] at hs
    cases a with
    | cfc => exact .inl ⟨.inr ⟨ts, ht⟩, hs⟩
    | hostSend msg => cases hs; exact .inr (.inl ⟨msg, ts, rfl, rfl⟩)
    | hostTake => cases hs; exact .inr (.inr (.inl ⟨ts, rfl, rfl⟩))
    | entropyAnswer req a => cases hs; exact .inr (.inr (.inr (.inl ⟨req, a, ts, rfl, rfl⟩)))
    | reset => cases hs; exact .inr (.inr (.inr (.inr ⟨ts, rfl, rfl⟩)))

/-- A run of no steps stays. -/
theorem run_zero (s : State) : Host.Core.run Sys2Proof.core 0 s = .next s := rfl

/-- A run of one more step takes that step first. -/
theorem run_succ (k : Nat) {s t : State} (h : step s = .next t) :
    Host.Core.run Sys2Proof.core (k + 1) s = Host.Core.run Sys2Proof.core k t := by
  have h' : Sys2Proof.core.step s = .next t := h
  simp only [Host.Core.run, h']

end Sys2Proof.Machine
end

