-- ==== Sys2Proof/Tests/Slice0.lean ====
section
/-! SUPPORT. Tests. Every expected value is spec/95_test_vectors.md's (the vector is named) or is read off the rule
named; nothing here is the model's own output. The last sections hold one witness per statement that has hypotheses. -/

namespace Sys2Proof.Tests

set_option Elab.async false

open Sys2Proof.Machine

/-! ### Helpers -/

/-- "secret" as UTF-8. -/
def secret : Bytes := [0x73#8, 0x65#8, 0x63#8, 0x72#8, 0x65#8, 0x74#8]

/-- The 22-byte record of V-E2. -/
def recordS2 : Bytes := [0x17#8, 0x03#8, 0x03#8, 0x00#8, 0x11#8, 0x0a#8, 0x0b#8, 0x53#8, 0xc6#8, 0xd4#8, 0x1e#8, 0x72#8,
  0xa2#8, 0xe2#8, 0x01#8, 0x02#8, 0x03#8, 0x68#8, 0x65#8, 0x6c#8, 0x6c#8, 0x6f#8]

/-- The ENCODE command of V-E2. -/
def encodeS2 : Bytes := [0x04#8, 0x00#8, 0x00#8, 0x00#8, 0x01#8, 0x00#8, 0x00#8, 0x00#8, 0x02#8, 0x00#8,
  0x68#8, 0x65#8, 0x6c#8, 0x6c#8, 0x6f#8]

/-- The frame of V-E2. -/
def frameS2 : Frame := ⟨1#32, 2#32, 0#8, [0x68#8, 0x65#8, 0x6c#8, 0x6c#8, 0x6f#8]⟩

/-- The bytes 0, 1, .., n - 1. -/
def countingKey (n : Nat) : Bytes := (List.range n).map (BitVec.ofNat 8)

/-- The reset state with a key loaded and CFG set. -/
def keyed (key : Bytes) (cfg : Byte) : State := (State.reset.loadKey key).loadCfg cfg

/-- The next state of an outcome. -/
def nextOf : Host.Outcome State Fault Refusal → Option State
  | .next t => some t
  | _ => none

theorem next_of {o : Host.Outcome State Fault Refusal} {t : State} (h : nextOf o = some t) : o = .next t := by
  cases o <;> simp_all [nextOf]

/-- The next state of a step. -/
def stepped (s : State) : Option State := nextOf (step s)

/-- The response one step of EXEC forms for a message. -/
def answerTo (cmd : Bytes) (s : State) : Option Bytes := (stepped (s.accept cmd)).bind (·.resp)

/-- The response once ENTROPY has answered. -/
def answerWith (a : EntropyAnswer) (cmd : Bytes) (s : State) : Option Bytes :=
  (stepped { s.accept cmd with entAnswer := some a }).bind (·.resp)

/-! ### WellFormed refuses each ill-formed term, and accepts the largest well-formed one -/

theorem test_wf_key_too_long : ¬(Instr.setkey (List.replicate 65 0#8)).WellFormed := by decide
theorem test_wf_key_longest : (Instr.setkey (List.replicate 64 0#8)).WellFormed := by decide
theorem test_wf_cfg_reserved_low : ¬(Instr.setcfg 0x04#8).WellFormed := by decide
theorem test_wf_cfg_reserved_high : ¬(Instr.setcfg 0x80#8).WellFormed := by decide
theorem test_wf_cfg_strict : (Instr.setcfg 0x03#8).WellFormed := by decide
theorem test_wf_derive : (Instr.derive ⟨0xff#8, 0xff#8, 0xff#8⟩).WellFormed := by decide
theorem test_wf_payload_too_long : ¬(Instr.encode 0 0 0 (List.replicate 65524 0#8)).WellFormed := by
  simp only [Instr.WellFormed, Instr.wellFormed, List.length_replicate]; decide
theorem test_wf_payload_longest : (Instr.encode 0 0 0 (List.replicate 65523 0#8)).WellFormed := by
  simp only [Instr.WellFormed, Instr.wellFormed, List.length_replicate]; decide
theorem test_wf_record_too_long : ¬(Instr.decode (List.replicate 65541 0#8)).WellFormed := by
  simp only [Instr.WellFormed, Instr.wellFormed, List.length_replicate]; decide
theorem test_wf_record_longest : (Instr.decode (List.replicate 65540 0#8)).WellFormed := by
  simp only [Instr.WellFormed, Instr.wellFormed, List.length_replicate]; decide

/-! ### Decoding: messages written out from 30_encoding.md R87 to R91, every operand with its own bytes -/

/-- R87: opcode 0x01, then the key. -/
theorem test_decode_setkey : decode [0x01#8, 0xde#8, 0xad#8, 0xbe#8, 0xef#8] =
    .instr (.setkey [0xde#8, 0xad#8, 0xbe#8, 0xef#8]) := by decide
/-- R88: opcode 0x02, then the configuration byte. -/
theorem test_decode_setcfg : decode [0x02#8, 0x02#8] = .instr (.setcfg 0x02#8) := by decide
/-- R89: opcode 0x03, then nonce bytes 0, 1, 2. -/
theorem test_decode_derive : decode [0x03#8, 0x0a#8, 0x0b#8, 0x0c#8] =
    .instr (.derive ⟨0x0a#8, 0x0b#8, 0x0c#8⟩) := by decide
/-- R90: opcode 0x04, StreamID and Seq most significant byte first, Closing, payload (V-E10). -/
theorem test_decode_encode : decode [0x04#8, 0x12#8, 0x34#8, 0x56#8, 0x78#8, 0x9a#8, 0xbc#8, 0xde#8, 0xf0#8, 0x80#8,
    0x00#8] = .instr (.encode 0x12345678#32 0x9abcdef0#32 0x80#8 [0x00#8]) := by decide
/-- R91: opcode 0x05, then the record. -/
theorem test_decode_decode : decode [0x05#8, 0x17#8, 0x03#8] = .instr (.decode [0x17#8, 0x03#8]) := by decide
/-- The encoder writes the same words. -/
theorem test_encode_words : encode (.setkey [0xde#8]) = [0x01#8, 0xde#8] ∧ encode (.setcfg 0x02#8) = [0x02#8, 0x02#8] ∧
    encode (.derive ⟨0x0a#8, 0x0b#8, 0x0c#8⟩) = [0x03#8, 0x0a#8, 0x0b#8, 0x0c#8] ∧
    encode (.encode 1 2 0 frameS2.payload) = encodeS2 ∧ encode (.decode [0x17#8]) = [0x05#8, 0x17#8] := by decide
/-- V-G1 to V-G5, V-C7, V-C8, V-D13, V-D14, V-E7: the messages that are no command. -/
theorem test_decode_errors : decode [] = .error .malformedCommand ∧ decode [0x00#8] = .error .illegalCommand ∧
    decode [0x06#8, 0x61#8, 0x62#8, 0x63#8] = .error .illegalCommand ∧ decode [0xff#8] = .error .illegalCommand ∧
    decode [0x07#8] = .error .illegalCommand ∧ decode [0x02#8] = .error .malformedCommand ∧
    decode [0x02#8, 0x00#8, 0x00#8] = .error .malformedCommand ∧
    decode [0x03#8, 0x01#8, 0x02#8] = .error .malformedCommand ∧
    decode [0x03#8, 0x01#8, 0x02#8, 0x03#8, 0x04#8] = .error .malformedCommand ∧
    decode (0x04#8 :: List.replicate 8 0x00#8) = .error .malformedCommand := by decide
/-- V-G6: INPUT_TOO_LARGE comes before ILLEGAL_COMMAND. -/
theorem test_decode_too_large : decode (0x07#8 :: List.replicate 65541 0x00#8) = .error .inputTooLarge := by
  rw [decode, if_pos (by rw [List.length_cons, List.length_replicate]; decide)]
/-- V-G7: L = MAX_MSG_BYTES is accepted. -/
theorem test_decode_largest : decode (0x05#8 :: List.replicate 65540 0x00#8) =
    .instr (.decode (List.replicate 65540 0x00#8)) := by
  rw [decode, if_neg (by rw [List.length_cons, List.length_replicate]; decide), if_neg (by rw [List.length_cons]; omega)]
  rfl
/-- The rows of spec/opcode_table.json, as the host asks for them (log 15). -/
theorem test_table_words : decodeTableWord 8 0x01 = some (.setkey []) ∧ decodeTableWord 8 0x02 = some (.setcfg 0) ∧
    decodeTableWord 8 0x03 = some (.derive ⟨0, 0, 0⟩) ∧ decodeTableWord 8 0x04 = some (.encode 0 0 0 []) ∧
    decodeTableWord 8 0x05 = some (.decode (List.replicate 17 0)) ∧ decodeTableWord 8 0x06 = none ∧
    decodeTableWord 32 0x0c0b0a03 = some (.derive ⟨0x0a, 0x0b, 0x0c⟩) := by decide
/-- The next step after withFetchWord runs the instruction of the word. -/
theorem test_fetch_word_runs : stepped (State.reset.withFetchWord 16 0x0302) = stepped (State.reset.accept [2, 3]) ∧
    (stepped (State.reset.withFetchWord 16 0x0302)).map (·.cfg) = some 0x03#8 := by decide

/-! ### The units -/

/-- Section 2: SHA-1 of the empty message and of "abc". -/
theorem test_sha1_check_values : sha1 [] = [0xda#8, 0x39#8, 0xa3#8, 0xee#8, 0x5e#8, 0x6b#8, 0x4b#8, 0x0d#8, 0x32#8,
      0x55#8, 0xbf#8, 0xef#8, 0x95#8, 0x60#8, 0x18#8, 0x90#8, 0xaf#8, 0xd8#8, 0x07#8, 0x09#8] ∧
    sha1 [0x61#8, 0x62#8, 0x63#8] = [0xa9#8, 0x99#8, 0x3e#8, 0x36#8, 0x47#8, 0x06#8, 0x81#8, 0x6a#8, 0xba#8, 0x3e#8,
      0x25#8, 0x71#8, 0x78#8, 0x50#8, 0xc2#8, 0x6c#8, 0x9c#8, 0xd0#8, 0xd8#8, 0x9d#8] := by decide +kernel
/-- V-D8 (one full block) and V-D10 (two blocks), whole digests. -/
theorem test_sha1_block_edge : sha1 (countingKey 52 ++ [0xaa#8, 0xbb#8, 0xcc#8]) = [0x81#8, 0xfe#8, 0x0b#8, 0x33#8,
      0xc7#8, 0xf8#8, 0xba#8, 0x5e#8, 0xd0#8, 0xca#8, 0x63#8, 0x7b#8, 0x0e#8, 0x2f#8, 0xd6#8, 0x95#8, 0x1a#8, 0xe2#8,
      0x06#8, 0x7c#8] ∧
    sha1 (countingKey 64 ++ [0xaa#8, 0xbb#8, 0xcc#8]) = [0x1b#8, 0xff#8, 0xc0#8, 0x52#8, 0x37#8, 0x4e#8, 0x42#8, 0x40#8,
      0xac#8, 0xa8#8, 0xff#8, 0x9f#8, 0xb2#8, 0xa3#8, 0x65#8, 0x01#8, 0xac#8, 0x03#8, 0x3e#8, 0xb4#8] := by
  decide +kernel
/-- V-D11: the derivation that is not this spec's. -/
theorem test_goSum_masks : maskVectorOf .goSumAppend secret ⟨1, 2, 3⟩ = secret ++ [0x01#8, 0x02#8, 0x03#8] ∧
    maskVectorOf .goSumAppend [] ⟨0, 0, 0⟩ =
      [0x00#8, 0x00#8, 0x00#8, 0xda#8, 0x39#8, 0xa3#8, 0xee#8, 0x5e#8, 0x6b#8] := by decide +kernel
/-- Section 4: records A, B, C, D under CFG 00, 01, 02, 03. -/
theorem test_strict_matrix :
    ([(false, false), (true, false), (false, true), (true, true)].map fun c =>
      [recordS2, 0x16#8 :: recordS2.drop 1, [0x17#8, 0x03#8, 0x03#8, 0x00#8, 0x12#8] ++ recordS2.drop 5,
       [0x16#8, 0x03#8, 0x01#8, 0x00#8, 0x00#8] ++ recordS2.drop 5].map (validate c.1 c.2)) =
    [[none, none, none, none], [none, some .badPreamble, none, some .badPreamble],
     [none, none, some .lengthMismatch, some .lengthMismatch],
     [none, some .badPreamble, some .lengthMismatch, some .badPreamble]] := by decide

/-! ### One step of each command -/

/-- V-K1. -/
theorem test_setkey_loads : answerTo (0x01#8 :: secret) State.reset = some [0x00#8] ∧
    (stepped (State.reset.accept (0x01#8 :: secret))).map (fun t => (t.keyBytes.toList, t.keyLen.val, t.keyValid)) =
      some (secret ++ List.replicate 58 0x00#8, 6, true) := by decide +kernel
/-- V-K4: the key in force stays. -/
theorem test_setkey_too_long : answerTo (0x01#8 :: List.replicate 65 0x00#8) (keyed secret 0) = some [0x07#8] ∧
    (stepped ((keyed secret 0).accept (0x01#8 :: List.replicate 65 0x00#8))).map (·.key) = some secret := by
  decide +kernel
/-- V-C4. -/
theorem test_setcfg_strict : answerTo [0x02#8, 0x03#8] (keyed secret 2) = some [0x00#8, 0x03#8] := by decide +kernel
/-- V-C6: CFG stays. -/
theorem test_setcfg_reserved : answerTo [0x02#8, 0x80#8] (keyed secret 3) = some [0x09#8] ∧
    (stepped ((keyed secret 3).accept [0x02#8, 0x80#8])).map (·.cfg) = some 0x03#8 := by decide +kernel
/-- V-D2 and V-D9. -/
theorem test_derive_masks : answerTo [0x03#8, 0x01#8, 0x02#8, 0x03#8] (keyed secret 0) =
      some [0x00#8, 0x0a#8, 0x0b#8, 0x53#8, 0xc7#8, 0xd4#8, 0x1e#8, 0x72#8, 0xa0#8, 0xe2#8] ∧
    answerTo [0x03#8, 0xaa#8, 0xbb#8, 0xcc#8] (keyed (countingKey 53) 0) =
      some [0x00#8, 0x5d#8, 0xa0#8, 0x09#8, 0x9d#8, 0xdb#8, 0xdc#8, 0xdc#8, 0xc4#8, 0x7d#8] := by decide +kernel
/-- V-D12 and V-D15: no key; the length check comes before the key check. -/
theorem test_derive_no_key : answerTo [0x03#8, 0x01#8, 0x02#8, 0x03#8] State.reset = some [0x06#8] ∧
    answerTo [0x03#8, 0x01#8, 0x02#8] State.reset = some [0x09#8] := by decide +kernel
/-- V-E10: StreamID, Seq and Closing each masked byte by byte. -/
theorem test_encode_record : answerWith (.bytes ⟨0, 0, 0⟩) [0x04#8, 0x12#8, 0x34#8, 0x56#8, 0x78#8, 0x9a#8, 0xbc#8,
      0xde#8, 0xf0#8, 0x80#8, 0x00#8] (keyed secret 0) =
    some [0x00#8, 0x17#8, 0x03#8, 0x03#8, 0x00#8, 0x0d#8, 0xd6#8, 0x02#8, 0x7c#8, 0x6e#8, 0x04#8, 0xb4#8, 0x38#8,
      0x03#8, 0x46#8, 0x00#8, 0x00#8, 0x00#8, 0x00#8] := by decide +kernel
/-- V-E12 and V-E8: FAIL is status 03, and with no key nothing is asked. -/
theorem test_encode_failures : answerWith .fail encodeS2 (keyed secret 0) = some [0x03#8] ∧
    answerTo (0x04#8 :: List.replicate 9 0x00#8) State.reset = some [0x06#8] := by decide +kernel
/-- V-X2 and V-X4: the right and the wrong key. -/
theorem test_decode_frames : answerTo (0x05#8 :: recordS2) (keyed secret 0) =
      some [0x00#8, 0x00#8, 0x00#8, 0x00#8, 0x01#8, 0x00#8, 0x00#8, 0x00#8, 0x02#8, 0x00#8, 0x68#8, 0x65#8, 0x6c#8,
        0x6c#8, 0x6f#8] ∧
    answerTo (0x05#8 :: recordS2) (keyed [0x77#8, 0x72#8, 0x6f#8, 0x6e#8, 0x67#8] 0) =
      some [0x00#8, 0x15#8, 0xa1#8, 0x21#8, 0x5b#8, 0x37#8, 0x2b#8, 0x2e#8, 0xc5#8, 0x73#8, 0x68#8, 0x65#8, 0x6c#8,
        0x6c#8, 0x6f#8] := by decide +kernel
/-- V-X5, V-X7, V-X8, V-X11: the rejections. -/
theorem test_decode_rejections : answerTo (0x05#8 :: List.replicate 16 0x00#8) (keyed secret 0) = some [0x01#8] ∧
    answerTo (0x05#8 :: ([0x16#8, 0x03#8, 0x01#8, 0x00#8, 0x00#8] ++ recordS2.drop 5)) (keyed secret 3) =
      some [0x04#8] ∧
    answerTo (0x05#8 :: (recordS2 ++ [0x00#8])) (keyed secret 3) = some [0x05#8] ∧
    answerTo (0x05#8 :: List.replicate 16 0x00#8) State.reset = some [0x06#8] := by decide +kernel

/-! ### The ports and reset -/

/-- V-R1: RESET forgets the key and CFG. -/
theorem test_reset_forgets : stepped { keyed secret 3 with turns := [.reset] } = some State.reset := by decide +kernel

/-- V-R2: RESET drops a waiting ENCODE; its late answer then changes nothing. -/
theorem test_reset_drops_encode :
    (stepped { keyed secret 0 with
      phase := .waitEnt
      cur := some ⟨encodeS2, some frameS2⟩
      entPending := true
      entRequests := 1
      turns := [.reset] }).map (fun t => (t.phase, t.cur, t.entPending, t.resp)) =
      some (.idle, none, false, none) ∧
    stepped { State.reset with entRequests := 1, turns := [.entropyAnswer 1 .fail] } =
      some { State.reset with entRequests := 1 } := by decide +kernel

/-- V-R3: RESET drops a response HOST has not taken. -/
theorem test_reset_drops_response :
    stepped { keyed secret 3 with
      phase := .respond
      cur := some ⟨[2, 3], none⟩
      resp := some [0, 3]
      turns := [.reset] } = some State.reset := by decide +kernel

/-! ### The assembler (R99, R100) -/

/-- The lines of program P1, with its comments and its underscores, and the pseudo-instructions. -/
theorem test_assembler_lines :
    assembleLine "SETKEY \"secret\"              ; 01 73 65 63".toList = some [0x01#8 :: secret] ∧
    assembleLine "ENCODE 1, 2, 0, \"hello\"".toList = some [encodeS2] ∧
    assembleLine "DECODE 0x1703030011_0a0b53c6d41e72a2e2_010203_68656c6c6f".toList = some [0x05#8 :: recordS2] ∧
    assembleLine "DERIVE 0x010203".toList = some [[0x03#8, 0x01#8, 0x02#8, 0x03#8]] ∧
    assembleLine "STRICT".toList = some [[0x02#8, 0x03#8]] ∧
    assembleLine "LENIENT".toList = some [[0x02#8, 0x00#8]] ∧
    assembleLine "MSG 0x07".toList = some [[0x07#8]] ∧
    assembleLine "ENCODE 0, 0, 0, []".toList = some [0x04#8 :: List.replicate 9 0x00#8] := by decide +kernel

/-- R99: an immediate that does not fit, an odd number of hex digits and an unknown mnemonic are assembler errors. -/
theorem test_assembler_errors : assembleLine "SETCFG 0x100".toList = none ∧ assembleLine "DERIVE 16777216".toList = none ∧
    assembleLine "SETKEY 0x123".toList = none ∧ assembleLine "HALT".toList = none := by decide +kernel

/-- R99's lines in order; the model's choice for a list with an error in it (log 18). -/
theorem test_assemble_lines :
    assembleLines ["SETKEY [] ; none".toList, "".toList, "STRICT".toList] = some [[0x01#8], [0x02#8, 0x03#8]] ∧
    assembleLines ["STRICT".toList, "SETCFG 256".toList, "LENIENT".toList] = none := by decide +kernel

/-! ### Witnesses: states that meet the invariant -/

/-- IDLE, "secret" loaded. -/
def idle (offers : List Bytes) (turns : List Turn) : State := { keyed secret 0 with offers := offers, turns := turns }

/-- EXEC, with a message just accepted. -/
def executing (cmd : Bytes) : State := (keyed secret 0).accept cmd

/-- WAIT_ENT, with the ENCODE of V-E2 held. -/
def waiting (turns : List Turn) : State :=
  { keyed secret 0 with
    phase := .waitEnt
    cur := some ⟨encodeS2, some frameS2⟩
    entPending := true
    entRequests := 1
    turns := turns }

/-- EXEC again, with ENTROPY's answer there. -/
def answered (a : EntropyAnswer) : State := (waiting []).liftHold a

/-- RESPOND, with a response held. -/
def responding (turns : List Turn) : State :=
  { keyed secret 0 with
    phase := .respond
    cur := some ⟨[0x02#8, 0x00#8], none⟩
    resp := some [0x00#8, 0x00#8]
    turns := turns }

theorem reserved_zero : cfgReserved 0x00#8 = 0#6 := by decide

theorem keyed_padded : ∀ i : Fin Config.keyMaxBytes, (keyed secret 0).keyLen.val ≤ i.val →
    (keyed secret 0).keyBytes[i] = 0x00#8 := by decide +kernel

theorem encodeS2_frame : decode encodeS2 =
    .instr (.encode frameS2.streamId frameS2.seq frameS2.closing frameS2.payload) := by decide

theorem wit_inv_idle (offers : List Bytes) (turns : List Turn) : (idle offers turns).Inv where
  cfg_reserved_zero := reserved_zero
  key_padded := keyed_padded
  no_key_while_invalid := nofun
  pending_iff_waiting := by simp [idle, keyed, State.reset]
  cur_empty_iff_idle := by simp [idle, keyed, State.reset]
  resp_empty_iff_not_respond := by simp [idle, keyed, State.reset]
  answer_only_in_exec h := absurd rfl h
  exec_frame_iff_answered := nofun
  waiting_has_frame := nofun
  frame_from_message := nofun

theorem wit_inv_executing (cmd : Bytes) : (executing cmd).Inv where
  cfg_reserved_zero := reserved_zero
  key_padded := keyed_padded
  no_key_while_invalid := nofun
  pending_iff_waiting := by simp [executing, keyed, State.reset]
  cur_empty_iff_idle := by simp [executing, State.accept]
  resp_empty_iff_not_respond := by simp [executing, keyed, State.reset]
  answer_only_in_exec _ := rfl
  exec_frame_iff_answered c _ h := by cases h; simp [executing, keyed, State.reset]
  waiting_has_frame := nofun
  frame_from_message c f h hf := by cases h; cases hf

theorem wit_inv_waiting (turns : List Turn) : (waiting turns).Inv where
  cfg_reserved_zero := reserved_zero
  key_padded := keyed_padded
  no_key_while_invalid := nofun
  pending_iff_waiting := by simp [waiting]
  cur_empty_iff_idle := by simp [waiting]
  resp_empty_iff_not_respond := by simp [waiting, keyed, State.reset]
  answer_only_in_exec h := absurd rfl h
  exec_frame_iff_answered := nofun
  waiting_has_frame c _ h := by cases h; simp
  frame_from_message c f h hf := by cases h; cases hf; exact ⟨encodeS2_frame, rfl, by decide⟩

theorem wit_inv_answered (a : EntropyAnswer) : (answered a).Inv where
  cfg_reserved_zero := reserved_zero
  key_padded := keyed_padded
  no_key_while_invalid := nofun
  pending_iff_waiting := by simp [answered]
  cur_empty_iff_idle := by simp [answered, waiting]
  resp_empty_iff_not_respond := by simp [answered, waiting, keyed, State.reset]
  answer_only_in_exec _ := rfl
  exec_frame_iff_answered c _ h := by cases h; simp [answered]
  waiting_has_frame := nofun
  frame_from_message c f h hf := by cases h; cases hf; exact ⟨encodeS2_frame, rfl, by decide⟩

theorem wit_inv_responding (turns : List Turn) : (responding turns).Inv where
  cfg_reserved_zero := reserved_zero
  key_padded := keyed_padded
  no_key_while_invalid := nofun
  pending_iff_waiting := by simp [responding, keyed, State.reset]
  cur_empty_iff_idle := by simp [responding]
  resp_empty_iff_not_respond := by simp [responding]
  answer_only_in_exec h := absurd rfl h
  exec_frame_iff_answered := nofun
  waiting_has_frame := nofun
  frame_from_message c f h hf := by cases h; cases hf

/-! ### Witnesses: one theorem per statement with hypotheses, each clause at a boundary value -/

theorem wit_DecodeOfEncodeIsTheCommand :
    (Instr.setkey (List.replicate 64 0xff#8)).WellFormed ∧ (Instr.setcfg 0x03#8).WellFormed ∧
    (Instr.derive ⟨0xff#8, 0x00#8, 0xff#8⟩).WellFormed ∧ (Instr.encode 0xffffffff#32 0 0xff#8 []).WellFormed ∧
    (Instr.decode []).WellFormed := by decide

theorem wit_EncodeOfDecodeIsTheMessage : decode [0x01#8] = .instr (.setkey []) ∧
    decode encodeS2 = .instr (.encode 1 2 0 frameS2.payload) := by decide

theorem wit_AssembledLinesDecode : (List.replicate 64 0xff#8).length ≤ Config.keyMaxBytes ∧
    (2 ^ 24 ≤ 16777216) ∧ ([0x00#8] : Bytes).length ≤ Config.maxPayloadBytes ∧
    1 + ([] : Bytes).length ≤ Config.maxMsgBytes := by decide

theorem wit_StepRunsTheDecodedCommand :
    (executing [0x02#8, 0x03#8]).phase = .exec ∧ (executing [0x02#8, 0x03#8]).cur = some ⟨[0x02#8, 0x03#8], none⟩ ∧
    (executing [0x02#8, 0x03#8]).turns = [] ∧ decode [0x02#8, 0x03#8] = .instr (.setcfg 0x03#8) ∧
    ((executing []).withTurns [.cfc, .hostTake]).phase = .exec ∧
    ((executing []).withTurns [.cfc, .hostTake]).cur = some ⟨[], none⟩ ∧
    ((executing []).withTurns [.cfc, .hostTake]).turns = .cfc :: [.hostTake] ∧
    decode [] = .error .malformedCommand := by decide +kernel

theorem wit_SetkeyLoadsTheKey : ([] : Bytes).length ≤ Config.keyMaxBytes ∧
    (List.replicate 64 0xff#8).length ≤ Config.keyMaxBytes := by decide

theorem wit_SetkeyTooLongKeepsTheKey : Config.keyMaxBytes < (List.replicate 65 0x00#8).length := by decide

theorem wit_SetcfgWritesAndReturnsCfg : cfgReserved 0x00#8 = 0#6 ∧ cfgReserved 0x03#8 = 0#6 := by decide

theorem wit_SetcfgReservedBitIsMalformed : (∃ i, 2 ≤ i ∧ i < 8 ∧ (0x04#8).getLsbD i = true) ∧
    (∃ i, 2 ≤ i ∧ i < 8 ∧ (0x80#8).getLsbD i = true) := ⟨⟨2, by decide⟩, ⟨7, by decide⟩⟩

theorem wit_DeriveRespondsTheMaskVector : (keyed secret 0).keyValid = true ∧ (keyed [] 0).keyValid = true := ⟨rfl, rfl⟩

theorem wit_CommandsOnFramesNeedAKey : State.reset.keyValid = false ∧
    (∃ n, Instr.derive ⟨1, 2, 3⟩ = .derive n) ∧ (∃ a b c p, Instr.encode 1 2 0 [] = .encode a b c p) ∧
    ∃ r, Instr.decode [] = .decode r := ⟨rfl, ⟨_, rfl⟩, ⟨_, _, _, _, rfl⟩, ⟨_, rfl⟩⟩

theorem wit_EncodeAsksEntropyAndHolds : (executing encodeS2).keyValid = true ∧
    frameS2.payload.length ≤ Config.maxPayloadBytes ∧ (executing encodeS2).entAnswer = none := by decide +kernel

/-- The longest payload an ENCODE accepts, and the shortest it rejects. -/
def payloadOf (n : Nat) : Frame := ⟨1, 2, 0, List.replicate n 0x00#8⟩

theorem payloadOf_length (n : Nat) : (payloadOf n).payload.length = n := List.length_replicate

theorem wit_EncodeRespondsTheRecord : (answered (.bytes ⟨1, 2, 3⟩)).keyValid = true ∧
    (payloadOf 65523).payload.length ≤ Config.maxPayloadBytes ∧
    (answered (.bytes ⟨1, 2, 3⟩)).entAnswer = some (.bytes ⟨1, 2, 3⟩) :=
  ⟨rfl, by rw [payloadOf_length], rfl⟩

theorem wit_EncodeReportsEntropyFailure : (answered .fail).keyValid = true ∧
    frameS2.payload.length ≤ Config.maxPayloadBytes ∧ (answered .fail).entAnswer = some .fail := by decide +kernel

theorem wit_EncodeRejectsLongPayload : (keyed secret 0).keyValid = true ∧ 65523 < (payloadOf 65524).payload.length :=
  ⟨rfl, by rw [payloadOf_length]; omega⟩

theorem wit_DecodeRespondsTheFrame : (keyed secret 3).keyValid = true ∧ 17 ≤ (recordS2.take 17).length ∧
    17 ≤ recordS2.length ∧ (keyed secret 3).cfg.getLsbD 0 = true ∧ slice recordS2 0 3 = [0x17#8, 0x03#8, 0x03#8] ∧
    (keyed secret 3).cfg.getLsbD 1 = true ∧ (be16 (slice recordS2 3 5)).toNat = recordS2.length - 5 := by decide +kernel

theorem wit_LenientDecodingIsExact : (keyed secret 0).keyValid = true ∧ (keyed secret 0).cfg.getLsbD 0 = false ∧
    (keyed secret 0).cfg.getLsbD 1 = false ∧ 17 ≤ (recordS2.take 17).length ∧
    ([0x16#8, 0x03#8, 0x01#8, 0x00#8, 0x00#8] ++ recordS2.drop 5).drop 5 = recordS2.drop 5 := by decide +kernel

theorem wit_DecodeRejectionsInOrder : State.reset.keyValid = false ∧ (keyed secret 3).keyValid = true ∧ (recordS2.take 16).length < 17 ∧
    17 ≤ (0x16#8 :: recordS2.drop 1).length ∧ (keyed secret 3).cfg.getLsbD 0 = true ∧
    slice (0x16#8 :: recordS2.drop 1) 0 3 ≠ [0x17#8, 0x03#8, 0x03#8] ∧
    17 ≤ (recordS2.take 17).length ∧ slice (recordS2.take 17) 0 3 = [0x17#8, 0x03#8, 0x03#8] ∧
    (keyed secret 3).cfg.getLsbD 1 = true ∧
    (be16 (slice (recordS2.take 17) 3 5)).toNat ≠ (recordS2.take 17).length - 5 := by decide +kernel

theorem wit_FrameOfEveryCommand :
    exec (.derive ⟨1, 2, 3⟩) State.reset = .next (State.reset.raise .keyNotLoaded) ∧
    exec (.setcfg 0x03#8) State.reset = .next ((State.reset.loadCfg 0x03#8).respondOk [0x03#8]) ∧
    exec (.encode 1 2 0 frameS2.payload) (executing encodeS2) = .next ((executing encodeS2).requestEntropy frameS2) :=
  ⟨next_of (by decide +kernel), next_of (by decide +kernel), next_of (by decide +kernel)⟩

theorem wit_FailedCommandWritesNothing : (executing []).phase = .exec ∧ (executing []).turns = [] ∧
    step (executing []) = .next ((executing []).raise .malformedCommand) ∧
    ((executing []).raise .malformedCommand).phase = .respond ∧
    ((executing []).raise .malformedCommand).resp = some (0x09#8 :: []) ∧ 0x09#8 ≠ 0x00#8 ∧
    ((executing [0x05#8]).withTurns [.cfc, .reset]).turns = .cfc :: [.reset] ∧
    (stepped ((executing [0x05#8]).withTurns [.cfc, .reset])).bind (·.resp) = some (0x01#8 :: []) :=
  ⟨rfl, rfl, next_of (by decide +kernel), rfl, rfl, by decide, rfl, by decide +kernel⟩

/-- The boundary lengths of R125. -/
theorem wit_BlockCountOfTheDeriver : (countingKey 52).length ≤ 52 ∧ 53 ≤ (countingKey 53).length ∧
    (countingKey 116).length ≤ 116 := by decide

theorem wit_GoSumMasksShowTheKey : 9 ≤ (countingKey 9).length := by decide

theorem wit_LayoutOfTheEncodedRecord : (payloadOf 0).payload.length ≤ Config.maxPayloadBytes ∧
    (payloadOf 65523).payload.length ≤ Config.maxPayloadBytes ∧ (answered (.bytes ⟨1, 2, 3⟩)).keyValid = true ∧
    (answered (.bytes ⟨1, 2, 3⟩)).key = secret ∧
    (answered (.bytes ⟨1, 2, 3⟩)).entAnswer = some (.bytes ⟨1, 2, 3⟩) :=
  ⟨by rw [payloadOf_length]; decide, by rw [payloadOf_length], rfl, by decide +kernel, rfl⟩

theorem wit_StrictChecksAcceptCanonicalRecords : (payloadOf 65523).payload.length ≤ Config.maxPayloadBytes ∧
    17 ≤ (recordS2.take 17).length := ⟨by rw [payloadOf_length], by decide⟩

theorem wit_DecoderUndoesEncoder : frameS2.payload.length ≤ Config.maxPayloadBytes ∧
    (keyed secret 3).keyValid = true ∧ (keyed secret 3).key = secret := by decide +kernel

theorem wit_EncoderUndoesDecoderOnCanonicalRecords : 17 ≤ recordS2.length ∧ canonicalRecord recordS2 = true ∧
    (dec secret recordS2).payload.length ≤ Config.maxPayloadBytes ∧
    17 ≤ (recordS2.take 17).length ∧ canonicalRecord (recordS2.take 17) = false ∧
    (dec secret (recordS2.take 17)).payload.length ≤ Config.maxPayloadBytes := by decide +kernel

theorem wit_WrongKeyGivesTheXorOfTheMasks : frameS2.payload.length ≤ Config.maxPayloadBytes ∧
    (keyed secret 0).keyValid = true ∧ (keyed secret 0).key = secret ∧ (keyed secret 0).chkPre = false ∧
    (keyed secret 0).chkLen = false := by decide +kernel

/-- For both statements about RESET's turn. -/
theorem wit_ResetTurnClearsTheCodec : (waiting [.reset, .cfc]).turns = .reset :: [.cfc] := rfl

theorem wit_ResetTurnLeavesTheAgentsTheirs : (idle [[0x01#8]] [.reset]).turns = .reset :: [] := rfl

theorem wit_PortAcceptsOnlyWhenIdle :
    (idle [[0x01#8]] []).phase = .idle ∧ (idle [[0x01#8]] []).offers = [0x01#8] :: [] ∧ (idle [[0x01#8]] []).turns = [] ∧
    (idle [[0x01#8]] [.cfc]).turns = .cfc :: [] ∧ (responding [.hostTake]).phase ≠ .idle ∧
    (stepped (responding [.hostTake])).isSome = true ∧ (waiting []).phase ≠ .idle ∧
    (stepped (waiting [])).map (·.phase) = some .waitEnt := by decide +kernel

theorem wit_TakingTheResponseReturnsToIdle : (responding [.hostTake]).phase = .respond ∧
    (responding [.hostTake]).resp = some [0x00#8, 0x00#8] ∧ (responding [.hostTake]).turns = .hostTake :: [] :=
  ⟨rfl, rfl, rfl⟩

theorem wit_OnlyTheOutstandingAnswerLiftsTheHold :
    (waiting [.entropyAnswer 1 .fail]).turns = .entropyAnswer 1 .fail :: [] ∧
    (waiting [.entropyAnswer 1 .fail]).phase = .waitEnt ∧ 1 = (waiting [.entropyAnswer 1 .fail]).entRequests ∧
    0 ≠ (waiting [.entropyAnswer 0 .fail]).entRequests ∧ (idle [] [.entropyAnswer 0 .fail]).phase ≠ .waitEnt := by
  decide

/-- For StepKeepsTheInvariant, NoStepStops and OneResponsePerCommand, with the wit_inv theorems: steps from states that
meet the invariant, of the CFC, of HOST sending, and of RESET. -/
theorem wit_StepKeepsTheInvariant :
    (idle [[0x01#8]] []).Inv ∧ step (idle [[0x01#8]] []) = .next ((idle [] []).accept [0x01#8]) ∧
    (idle [] [.hostSend [0x01#8]]).Inv ∧ step (idle [] [.hostSend [0x01#8]]) = .next (idle [[0x01#8]] []) ∧
    (waiting [.reset]).Inv ∧ step (waiting [.reset]) = .next { State.reset with entRequests := 1 } :=
  ⟨wit_inv_idle _ _, next_of (by decide +kernel), wit_inv_idle _ _, next_of (by decide +kernel), wit_inv_waiting _,
    next_of (by decide +kernel)⟩

theorem wit_NoStepStops : (idle [] []).Inv ∧ (executing []).Inv ∧ (waiting []).Inv ∧ (answered .fail).Inv ∧
    (responding []).Inv :=
  ⟨wit_inv_idle _ _, wit_inv_executing _, wit_inv_waiting _, wit_inv_answered _, wit_inv_responding _⟩

theorem wit_StepKeepsResponsesLegal : (responding [.hostTake]).ResponsesLegal ∧
    (stepped (responding [.hostTake])).map (·.taken) = some [[0x00#8, 0x00#8]] :=
  ⟨⟨fun r h => by cases h; decide, nofun⟩, by decide +kernel⟩

/-- One step of each kind the statement tells apart. -/
theorem wit_PhaseMovesAsTheSequencerSays :
    (stepped (waiting [.reset])).map (·.phase) = some .idle ∧ (stepped (idle [[]] [])).map (·.phase) = some .exec ∧
    (stepped (executing encodeS2)).map (·.phase) = some .waitEnt ∧
    (stepped (waiting [.entropyAnswer 1 .fail])).map (·.phase) = some .exec ∧
    (stepped (executing [])).map (·.phase) = some .respond ∧
    (stepped (responding [.hostTake])).map (·.phase) = some .idle := by decide +kernel

theorem wit_OnlySetkeyAndResetWriteTheKey :
    (stepped (executing [0x01#8])).map (·.key) = some [] ∧ (executing [0x01#8]).key = secret ∧
    (stepped (idle [] [.reset])).map (·.keyValid) = some false ∧ (idle [] [.reset]).keyValid = true := by decide +kernel

theorem wit_OnlySetcfgAndResetWriteCfg :
    (stepped (executing [0x02#8, 0x03#8])).map (·.cfg) = some 0x03#8 ∧ (executing [0x02#8, 0x03#8]).cfg = 0x00#8 ∧
    (stepped { keyed secret 3 with turns := [.reset] }).map (·.cfg) = some 0x00#8 ∧ (keyed secret 3).cfg = 0x03#8 := by
  decide +kernel

theorem wit_EntropyRequestsComeFromPassingEncodes :
    (stepped (executing encodeS2)).map (·.entRequests) = some 1 ∧ (executing encodeS2).entRequests = 0 ∧
    (executing encodeS2).Inv ∧ (executing encodeS2).phase = .exec ∧
    (executing encodeS2).cur = some ⟨encodeS2, none⟩ ∧ asksEntropy (executing encodeS2).regs encodeS2 = true ∧
    (executing encodeS2).turns = [] ∧
    (answered .fail).Inv ∧ (answered .fail).phase = .exec ∧ (answered .fail).cur = some ⟨encodeS2, some frameS2⟩ ∧
    asksEntropy (answered .fail).regs encodeS2 = true ∧ (answered .fail).turns = [] ∧
    (∃ ts, ((executing encodeS2).withTurns [.cfc, .hostTake]).turns = .cfc :: ts) ∧
    (stepped ((executing encodeS2).withTurns [.cfc, .hostTake])).map (·.entRequests) = some 1 ∧
    (stepped ((answered .fail).withTurns [.cfc])).map (·.entRequests) = some 1 :=
  ⟨by decide +kernel, by decide +kernel, wit_inv_executing _, rfl, rfl, by decide +kernel, rfl, wit_inv_answered _, rfl,
    rfl, by decide +kernel, rfl, ⟨_, rfl⟩, by decide +kernel, by decide +kernel⟩

theorem wit_OneResponsePerCommand :
    (responding [.hostTake]).Inv ∧ (stepped (responding [.hostTake])).isSome = true ∧
    (responding [.hostTake]).turns = .hostTake :: [] ∧
    (waiting [.hostSend []]).Inv ∧ (stepped (waiting [.hostSend []])).isSome = true ∧
    (waiting [.hostSend []]).turns = .hostSend [] :: [] :=
  ⟨wit_inv_responding _, by decide +kernel, rfl, wit_inv_waiting _, by decide +kernel, rfl⟩

theorem wit_TakenResponsesNeverChange :
    (stepped (responding [.hostTake])).map (·.taken) = some [[0x00#8, 0x00#8]] ∧
    (stepped (responding [.reset])).map (·.taken) = some [] := by decide +kernel

theorem wit_EntropyHoldLasts :
    (waiting [.cfc, .hostSend [0x02#8, 0x03#8], .hostTake, .entropyAnswer 0 .fail]).phase = .waitEnt ∧
    .reset ∉ (waiting [.cfc, .hostSend [0x02#8, 0x03#8], .hostTake, .entropyAnswer 0 .fail]).turns ∧
    ∀ a, .entropyAnswer (waiting []).entRequests a ∉
      (waiting [.cfc, .hostSend [0x02#8, 0x03#8], .hostTake, .entropyAnswer 0 .fail]).turns :=
  ⟨rfl, by decide, fun a => by simp [waiting]⟩

theorem wit_ResponseHoldLasts : (responding [.cfc, .hostSend [], .entropyAnswer 0 .fail]).phase = .respond ∧
    .reset ∉ (responding [.cfc, .hostSend [], .entropyAnswer 0 .fail]).turns ∧
    .hostTake ∉ (responding [.cfc, .hostSend [], .entropyAnswer 0 .fail]).turns := by decide +kernel

/-- A message on each side of each length limit of R242, with and without an answer. -/
theorem wit_ErrorsFollowTheTable :
    (executing encodeS2).phase = .exec ∧ (executing encodeS2).cur = some ⟨encodeS2, none⟩ ∧
    (executing encodeS2).turns = [] ∧ (executing encodeS2).entAnswer = none ∧
    firstError (executing encodeS2).regs (.bytes ⟨0#8, 0#8, 0#8⟩) encodeS2 = none ∧
    (answered .fail).cur = some ⟨encodeS2, some frameS2⟩ ∧ (answered .fail).entAnswer = some .fail ∧
    firstError (answered .fail).regs .fail encodeS2 = some .entropyUnavailable ∧
    ([[], [0x07#8], [0x02#8, 0x00#8, 0x00#8], [0x02#8, 0x04#8], 0x01#8 :: List.replicate 65 0, [0x03#8, 1, 2],
      0x05#8 :: List.replicate 16 0, [0x01#8], 0x01#8 :: List.replicate 64 0, 0x05#8 :: List.replicate 17 0].map
        (firstError (keyed secret 0).regs .fail)) =
      [some .malformedCommand, some .illegalCommand, some .malformedCommand, some .malformedCommand, some .keyTooLong,
       some .malformedCommand, some .tooShort, none, none, none] := by decide +kernel

theorem wit_KeyBytesPastTheLengthAreNotRead :
    (loadKeyBytes (secret ++ [0xff#8])).toList.take (keyed secret 0).keyLen.val = (keyed secret 0).key ∧
    loadKeyBytes (secret ++ [0xff#8]) ≠ (keyed secret 0).keyBytes ∧
    exec (.setkey []) (keyed secret 0) = .next (((keyed secret 0).loadKey []).respondOk []) :=
  ⟨by decide +kernel, by decide +kernel, next_of (by decide +kernel)⟩

theorem wit_CfgSteersDecodeOnly : (∀ r, Instr.setkey [] ≠ .decode r) ∧
    exec (.setkey []) (keyed secret 0) = .next (((keyed secret 0).loadKey []).respondOk []) :=
  ⟨nofun, next_of (by decide +kernel)⟩

theorem wit_DeriveAndDecodeAreIdempotent : (∃ n, Instr.derive ⟨1, 2, 3⟩ = .derive n) ∧
    (∃ r, Instr.decode [] = .decode r) ∧ (keyed secret 0).regs = (waiting [.reset]).regs :=
  ⟨⟨_, rfl⟩, ⟨_, rfl⟩, by decide +kernel⟩

theorem wit_OneCommandFollowsTheReference :
    (idle [encodeS2, []] [.cfc, .cfc, .entropyAnswer 1 .fail, .cfc, .hostTake, .reset]).Inv ∧
    (idle [encodeS2, []] []).phase = .idle ∧ (idle [encodeS2, []] []).offers = encodeS2 :: [[]] ∧
    (idle [encodeS2, []] [.cfc, .cfc, .entropyAnswer 1 .fail, .cfc, .hostTake, .reset]).turns =
      fairTurns (idle [encodeS2, []] []).entRequests (idle [encodeS2, []] []).regs [(encodeS2, .fail)] ++ [.reset] :=
  ⟨wit_inv_idle _ _, rfl, rfl, by decide +kernel⟩

theorem wit_FairRunFollowsTheReference :
    (idle [encodeS2, [0x01#8]] [.cfc, .cfc, .entropyAnswer 1 .fail, .cfc, .hostTake, .cfc, .cfc, .hostTake]).Inv ∧
    (idle [encodeS2, [0x01#8]] []).phase = .idle ∧
    (idle [encodeS2, [0x01#8]] []).offers = [(encodeS2, EntropyAnswer.fail), ([0x01#8], EntropyAnswer.fail)].map (·.1) ∧
    (idle [encodeS2, [0x01#8]] [.cfc, .cfc, .entropyAnswer 1 .fail, .cfc, .hostTake, .cfc, .cfc, .hostTake]).turns =
      fairTurns (idle [encodeS2, [0x01#8]] []).entRequests (idle [encodeS2, [0x01#8]] []).regs
        [(encodeS2, .fail), ([0x01#8], .fail)] :=
  ⟨wit_inv_idle _ _, rfl, rfl, by decide +kernel⟩

/-- A message one byte over MAX_MSG_BYTES, one of exactly MAX_MSG_BYTES with opcode 0x06, and the shortest illegal
one. -/
theorem wit_DispatchRejectsLongAndIllegalMessages :
    (executing (0x07#8 :: List.replicate 65541 0x00#8)).phase = .exec ∧
    (executing (0x07#8 :: List.replicate 65541 0x00#8)).cur = some ⟨0x07#8 :: List.replicate 65541 0x00#8, none⟩ ∧
    (executing (0x07#8 :: List.replicate 65541 0x00#8)).turns = [] ∧
    65541 < (0x07#8 :: List.replicate 65541 0x00#8 : Bytes).length ∧
    (executing (0x06#8 :: List.replicate 65540 0x00#8)).cur = some ⟨0x06#8 :: List.replicate 65540 0x00#8, none⟩ ∧
    (0x06#8 :: List.replicate 65540 0x00#8 : Bytes).length ≤ 65541 ∧
    opcodeOf (0x06#8 :: List.replicate 65540 0x00#8) ∉ [0x01#8, 0x02#8, 0x03#8, 0x04#8, 0x05#8] ∧
    (executing [0x00#8]).cur = some ⟨[0x00#8], none⟩ ∧ 1 ≤ [0x00#8].length ∧ [0x00#8].length ≤ 65541 ∧
    opcodeOf [0x00#8] ∉ [0x01#8, 0x02#8, 0x03#8, 0x04#8, 0x05#8] := by
  refine ⟨rfl, rfl, rfl, ?_, rfl, ?_, by rw [opcodeOf, byteAt, List.getD_cons_zero]; decide, rfl, by decide, by decide,
    by decide⟩ <;> rw [List.length_cons, List.length_replicate] <;> decide

/-- The state reached when the ENCODE of V-E2 waits in its hold and RESET comes next. -/
theorem wit_DiscardedCommandLeavesTheRunOpen :
    let s : State := { waiting [.reset] with accepted := [encodeS2] }
    (keyed secret 0).accepted.length + s.taken.length + s.inFlight ≤ s.accepted.length + (keyed secret 0).taken.length ∧
    s.phase ≠ .idle ∧ s.turns = .reset :: [] ∧
    Host.Core.run Sys2Proof.core (0 + 1) s = .next { State.reset with entRequests := 1, accepted := [encodeS2] } :=
  ⟨by decide, by decide, rfl, next_of (by decide +kernel)⟩

/-! ### The end of a run (R288) -/

/-- The run of one command is over once HOST has taken its response, and open while a second one still waits in a
`hostSend` turn or at the port. -/
theorem test_run_over :
    let s : State := { idle [] [.hostSend []] with accepted := [[0x02#8, 0x00#8]], taken := [[0x00#8, 0x00#8]] }
    s.RunOver (keyed secret 0) [[0x02#8, 0x00#8]] ∧ ¬ s.RunOver (keyed secret 0) [[0x02#8, 0x00#8], []] ∧
    ¬ (s.hostSend []).RunOver (keyed secret 0) [[0x02#8, 0x00#8], []] ∧
    ¬ (s.accept []).RunOver (keyed secret 0) [[0x02#8, 0x00#8], []] := by
  refine ⟨⟨by decide, by decide, rfl, rfl⟩, fun h => ?_, fun h => ?_, fun h => ?_⟩
  · exact absurd h.1 (by decide)
  · exact absurd h.1 (by decide)
  · exact absurd h.2.2.1 (by decide)

/-- R272: RESET of a command in flight leaves its run open. -/
theorem test_run_open_after_reset :
    let s : State := { State.reset with entRequests := 1, accepted := [encodeS2] }
    ¬ s.RunOver (keyed secret 0) [encodeS2] := fun h => absurd h.2.1 (by decide)

end Sys2Proof.Tests
end

/-! ### The state: proofs -/

namespace Sys2Proof.Machine

/-- R38, R271: KEY_BYTES after reset. -/
@[simp] theorem reset_keyBytes_getElem (i : Nat) (h : i < Config.keyMaxBytes) :
    State.reset.keyBytes[i] = 0x00#8 :=
  Vector.getElem_replicate h

/-- Settles O33: KEY_BYTES byte by byte; every other element is a field of the reset state, read off. -/
theorem resetValues : Obligations.ResetValues := by
  unfold Obligations.ResetValues
  have keyBytes_zero (i : Fin Config.keyMaxBytes) : State.reset.keyBytes[i] = 0x00#8 :=
    reset_keyBytes_getElem i.val i.isLt
  exact ⟨keyBytes_zero, rfl, rfl, rfl, rfl, rfl, rfl, rfl⟩

end Sys2Proof.Machine

/-! ### Masking: proofs -/

namespace Sys2Proof

/-- R54, R141: two nine-byte images XOR part by part, since parts of equal length stand at the same places. -/
theorem xorBytes_nineByteImages (a b c d : U32) (x y : Byte) :
    xorBytes (bytes32 a ++ bytes32 b ++ [x]) (bytes32 c ++ bytes32 d ++ [y]) =
      bytes32 (a ^^^ c) ++ bytes32 (b ^^^ d) ++ [x ^^^ y] := by
  have closing : xorBytes [x] [y] = [x ^^^ y] := rfl
  rw [xorBytes_append _ _ _ _ (by simp), xorBytes_append _ _ _ _ (by simp), xorBytes_bytes32, xorBytes_bytes32, closing]

/-- R54: the masked header image, field by field. -/
theorem xorBytes_headerImage_maskVector (f : Frame) (key : Bytes) (n : Nonce) :
    xorBytes (headerImage f) (maskVector key n) =
      bytes32 (f.streamId ^^^ (deriveMasks key n).k1) ++ bytes32 (f.seq ^^^ (deriveMasks key n).k2)
        ++ [f.closing ^^^ (deriveMasks key n).k3] := by
  rw [headerImage, maskVector_eq_masks, xorBytes_nineByteImages]

/-- Settles O27: the mask vector is the image of the three masks, and XOR keeps the places of the fields. -/
theorem maskingIsFieldwise : Obligations.MaskingIsFieldwise := by
  unfold Obligations.MaskingIsFieldwise
  exact ⟨fun a b => (xorBytes_bytes32 a b).symm, xorBytes_headerImage_maskVector⟩

end Sys2Proof

/-! ### Canonical records: proofs -/

namespace Sys2Proof

/-- R81, the two conditions and R80's length. -/
theorem canonicalRecord_iff (r : Bytes) :
    canonicalRecord r = true ↔
      Config.minRecordBytes ≤ r.length ∧ recordConst r = preambleConst ∧ recordLength r = r.length - 5 :=
  decide_eq_true_iff

/-- R81, R179, R180: with both CFG bits set the validator passes the canonical records and no others. -/
theorem validate_strict_eq_none_iff (r : Bytes) : validate true true r = none ↔ canonicalRecord r = true := by
  simp only [validate_eq_none, canonicalRecord_iff, forall_true_left]

/-- R150: an emitted record is the smallest record and the payload. -/
@[simp] theorem length_enc (key : Bytes) (n : Nonce) (f : Frame) :
    (enc key n f).length = 17 + f.payload.length := by
  simp only [enc_eq, List.length_append, length_preambleConst, length_bytes16, length_maskApply, length_nonceBytes]

/-- R73, R140: an emitted record begins with the preamble's constant bytes. -/
@[simp] theorem recordConst_enc (key : Bytes) (n : Nonce) (f : Frame) :
    recordConst (enc key n f) = preambleConst := rfl

/-- R80, R140: an emitted record's length field is the image of `12 + n`. -/
theorem slice_lengthField_enc (key : Bytes) (n : Nonce) (f : Frame) :
    slice (enc key n f) 3 5 = bytes16 (BitVec.ofNat 16 (12 + f.payload.length)) := rfl

/-- R140: while `12 + n` fits in 16 bits, an emitted record declares it. -/
theorem recordLength_enc (key : Bytes) (n : Nonce) (f : Frame) (h : f.payload.length ≤ Config.maxPayloadBytes) :
    recordLength (enc key n f) = 12 + f.payload.length := by
  rw [recordLength, slice_lengthField_enc, be16_bytes16, BitVec.toNat_ofNat]
  have fits : f.payload.length ≤ 65523 := h
  exact Nat.mod_eq_of_lt (by omega)

/-- R81: every record the encoder emits is canonical. -/
theorem canonicalRecord_enc (key : Bytes) (n : Nonce) (f : Frame)
    (h : f.payload.length ≤ Config.maxPayloadBytes) : canonicalRecord (enc key n f) = true := by
  refine (canonicalRecord_iff _).2 ⟨?_, recordConst_enc key n f, ?_⟩
  · rw [length_enc]
    exact Nat.le_add_right _ _
  · rw [recordLength_enc key n f h, length_enc]
    omega

/-- Settles O29: both halves read off the conditions of a canonical record. -/
theorem strictChecksAcceptCanonicalRecords : Obligations.StrictChecksAcceptCanonicalRecords := by
  unfold Obligations.StrictChecksAcceptCanonicalRecords
  constructor
  · intro key n f hf
    obtain ⟨long, constBytes, declared⟩ := (canonicalRecord_iff _).1 (canonicalRecord_enc key n f hf)
    exact ⟨constBytes, declared, long⟩
  · intro r long
    rw [validate_strict_eq_none_iff, canonicalRecord_iff]
    exact and_iff_right long

end Sys2Proof

/-! ### The configuration byte: proofs -/

namespace Sys2Proof

/-- R27, R93: the reserved field is non-zero exactly when one of bits 7:2 is set. -/
theorem cfgReserved_ne_zero_iff (c : Byte) :
    cfgReserved c ≠ 0#6 ↔ ∃ i, 2 ≤ i ∧ i < 8 ∧ c.getLsbD i = true := by
  have bit (i : Nat) (h : i < 6) : (cfgReserved c).getLsbD i = c.getLsbD (2 + i) := by
    simp [cfgReserved, h]
  constructor
  · intro nonzero
    by_contra allZero
    push Not at allZero
    apply nonzero
    apply BitVec.eq_of_getLsbD_eq
    intro i hi
    rw [bit i hi, BitVec.getLsbD_zero, Bool.eq_false_iff]
    exact allZero (2 + i) (by omega) (by omega)
  · rintro ⟨i, low, high, bitSet⟩ zero
    have bitClear := bit (i - 2) (by omega)
    rw [zero, BitVec.getLsbD_zero, Nat.add_sub_cancel' low, bitSet] at bitClear
    exact Bool.false_ne_true bitClear

end Sys2Proof

namespace Sys2Proof.Machine

/-- R93: SETCFG of a byte with a non-zero reserved field only raises its error. -/
theorem exec_setcfg_of_reserved {c : Byte} (h : cfgReserved c ≠ 0#6) (s : State) :
    exec (.setcfg c) s = .next (s.raise .malformedCommand) := by
  obtain ⟨t, answer⟩ := exec_answers (.setcfg c) s
  obtain ⟨zero, -⟩ | ⟨-, rfl⟩ := execSetcfg_cases answer
  · exact absurd zero h
  · exact answer

/-- Settles O11: one of bits 7:2 set makes the reserved field non-zero. -/
theorem setcfgReservedBitIsMalformed : Obligations.SetcfgReservedBitIsMalformed := by
  unfold Obligations.SetcfgReservedBitIsMalformed
  intro c s reservedBit
  exact exec_setcfg_of_reserved ((cfgReserved_ne_zero_iff c).2 reservedBit) s

end Sys2Proof.Machine

/-! ### SHA-1 padding and block count: proofs -/

namespace Sys2Proof

/-- R118: the zero run brings the message and its 0x80 to 56 bytes of the last block. -/
theorem padZeros_congr (len : Nat) : (len + 1 + padZeros len) % 64 = 56 := by
  unfold padZeros
  omega

/-- R118: the zero run is shorter than a block. -/
theorem padZeros_lt (len : Nat) : padZeros len < 64 := Nat.mod_lt _ (by decide)

/-- R118: a zero run shorter than a block is the shortest that fills the block. -/
theorem padZeros_le_of_congr {len z : Nat} (congr : (len + 1 + z) % 64 = 56) : padZeros len ≤ z := by
  have short := padZeros_lt len
  have fills := padZeros_congr len
  omega

/-- R118: the closed form of the zero run, over the integers, where `55 - len` may be negative. -/
theorem cast_padZeros (len : Nat) : (padZeros len : Int) = (55 - (len : Int)) % 64 := by
  unfold padZeros
  omega

/-- R118: beside the message stand the 0x80, the zero run and the eight length bytes. -/
theorem length_pad (m : Bytes) : (pad m).length = m.length + 9 + padZeros m.length := by
  simp only [pad, List.length_append, List.length_singleton, List.length_replicate, length_bytes64]
  omega

/-- R118: the padded message is the least number of whole blocks that hold the message and nine bytes more. -/
theorem length_pad_eq_ceil (m : Bytes) : (pad m).length = 64 * ((m.length + 9 + 63) / 64) := by
  have fills := padZeros_congr m.length
  have short := padZeros_lt m.length
  rw [length_pad]
  omega

/-- Settles O23: the zero run is `padZeros`, and each clause is one of its laws. -/
theorem paddingFillsWholeBlocks : Obligations.PaddingFillsWholeBlocks := by
  unfold Obligations.PaddingFillsWholeBlocks
  intro m
  exact ⟨padZeros m.length, rfl, padZeros_congr m.length, fun _ => padZeros_le_of_congr, cast_padZeros m.length,
    length_pad_eq_ceil m⟩

/-- R118, R125: the number of blocks, from the message's length alone. -/
theorem blockCount_eq (m : Bytes) : blockCount m = (m.length + 9 + 63) / 64 := by
  rw [blockCount, length_pad_eq_ceil, Nat.mul_div_cancel_left _ (by decide)]

/-- R113: the length of the hash message. -/
theorem length_hashMessage (key : Bytes) (n : Nonce) : (key ++ nonceBytes n).length = key.length + 3 := by
  rw [List.length_append, length_nonceBytes]

/-- R125, up to 52 key bytes. -/
theorem blockCount_eq_one {key : Bytes} (n : Nonce) (h : key.length ≤ 52) : blockCount (key ++ nonceBytes n) = 1 := by
  rw [blockCount_eq, length_hashMessage]
  omega

/-- R125, from 53 to 116 key bytes. -/
theorem blockCount_eq_two {key : Bytes} (n : Nonce) (low : 53 ≤ key.length) (high : key.length ≤ 116) :
    blockCount (key ++ nonceBytes n) = 2 := by
  rw [blockCount_eq, length_hashMessage]
  omega

end Sys2Proof

namespace Sys2Proof.Machine

/-- R13, R22: a state's key has at most KEY_MAX_BYTES bytes. -/
theorem length_key_le (s : State) : s.key.length ≤ Config.keyMaxBytes :=
  (List.length_take_le' _ _).trans_eq s.keyBytes.length_toList

/-- Settles O24: each bound on the key's length fixes the block count, and a state's key obeys one of them. -/
theorem blockCountOfTheDeriver : Obligations.BlockCountOfTheDeriver := by
  unfold Obligations.BlockCountOfTheDeriver
  intro key n
  refine ⟨length_hashMessage key n, blockCount_eq_one n, blockCount_eq_two n, fun s => ?_⟩
  have bound : s.key.length ≤ 64 := length_key_le s
  obtain short | long : s.key.length ≤ 52 ∨ 53 ≤ s.key.length := by omega
  · exact .inl (blockCount_eq_one n short)
  · exact .inr (blockCount_eq_two n long (by omega))

end Sys2Proof.Machine

/-! ### The masks and the chaining words: proofs -/

namespace Sys2Proof

/-- R124: nine digest bytes are two chaining words and the top byte of the third. -/
theorem take_nine_digestBytes (h : Sha1State) :
    (digestBytes h).take 9 = bytes32 h.h0 ++ bytes32 h.h1 ++ [h.h2.extractLsb' 24 8] := rfl

/-- R112, R114: the mask vector is the first nine bytes of SHA-1's digest. -/
theorem maskVector_eq_take_sha1 (key : Bytes) (n : Nonce) :
    maskVector key n = (sha1 (key ++ nonceBytes n)).take 9 := rfl

/-- R124: the three masks are the chaining words H0 and H1 and the top byte of H2. -/
theorem deriveMasks_eq_chain (key : Bytes) (n : Nonce) :
    deriveMasks key n =
      ⟨(sha1Chain (key ++ nonceBytes n)).h0, (sha1Chain (key ++ nonceBytes n)).h1,
        (sha1Chain (key ++ nonceBytes n)).h2.extractLsb' 24 8⟩ := by
  simp only [deriveMasks, maskVector_eq_take_sha1, sha1, take_nine_digestBytes]
  generalize sha1Chain (key ++ nonceBytes n) = h
  have first : slice (bytes32 h.h0 ++ bytes32 h.h1 ++ [h.h2.extractLsb' 24 8]) 0 4 = bytes32 h.h0 := rfl
  have second : slice (bytes32 h.h0 ++ bytes32 h.h1 ++ [h.h2.extractLsb' 24 8]) 4 8 = bytes32 h.h1 := rfl
  have ninth : byteAt (bytes32 h.h0 ++ bytes32 h.h1 ++ [h.h2.extractLsb' 24 8]) 8 = h.h2.extractLsb' 24 8 := rfl
  rw [first, second, ninth, be32_bytes32, be32_bytes32]

/-- Settles O25: the masks are read from the mask vector, they make it up again, and they are the chaining words. -/
theorem masksAreTheFirstNineDigestBytes : Obligations.MasksAreTheFirstNineDigestBytes := by
  unfold Obligations.MasksAreTheFirstNineDigestBytes
  intro key n k d h
  have image : bytes32 k.k1 ++ bytes32 k.k2 ++ [k.k3] = d.take 9 := (maskVector_eq_masks key n).symm
  have words : k = ⟨h.h0, h.h1, h.h2.extractLsb' 24 8⟩ := deriveMasks_eq_chain key n
  exact ⟨rfl, length_sha1 _, take_nine_digestBytes h, rfl, rfl, rfl, image, congrArg Masks.k1 words,
    congrArg Masks.k2 words, congrArg Masks.k3 words⟩

end Sys2Proof

/-! ### The encoded record: proofs -/

namespace Sys2Proof

/-- R18: a slice that spans the middle part of three is that part. -/
theorem slice_append_middle {a b : Bytes} (c : Bytes) {i j : Nat} (start : a.length = i) (stop : i + b.length = j) :
    slice (a ++ b ++ c) i j = b := by
  subst start stop
  rw [slice_append_left _ _ _ _ List.length_append.ge, slice_append_right _ _ _ _ le_rfl, Nat.sub_self,
    Nat.add_sub_cancel_left, slice_zero_self _ _ le_rfl]

/-- R140, R151: the first five bytes of an emitted record are its preamble. -/
theorem take_five_enc (key : Bytes) (n : Nonce) (f : Frame) :
    (enc key n f).take 5 = preamble f.payload.length := rfl

/-- R75: after the preamble an emitted record has the masked header image. -/
@[simp] theorem recordHeader_enc (key : Bytes) (n : Nonce) (f : Frame) :
    recordHeader (enc key n f) = maskApply (headerImage f) (maskVector key n) := by
  rw [recordHeader, enc_eq, List.append_assoc]
  exact slice_append_middle _ rfl (by rw [length_maskApply])

/-- R153: after the masked header image an emitted record has the nonce in clear. -/
theorem slice_nonceField_enc (key : Bytes) (n : Nonce) (f : Frame) :
    slice (enc key n f) 14 17 = nonceBytes n := by
  rw [enc_eq]
  refine slice_append_middle _ ?_ (by rw [length_nonceBytes])
  simp only [List.length_append, length_preambleConst, length_bytes16, length_maskApply]

/-- R152: after the nonce an emitted record has the payload, unchanged. -/
@[simp] theorem recordPayload_enc (key : Bytes) (n : Nonce) (f : Frame) :
    recordPayload (enc key n f) = f.payload := by
  rw [recordPayload, enc_eq]
  refine List.drop_left' ?_
  simp only [List.length_append, length_preambleConst, length_bytes16, length_maskApply, length_nonceBytes]

end Sys2Proof

namespace Sys2Proof.Machine

/-- R144, R145: an ENCODE whose checks pass comes down to ENTROPY's answer. -/
theorem exec_encode_of_checks {f : Frame} {s : State} (keyed : s.keyValid = true)
    (fits : f.payload.length ≤ Config.maxPayloadBytes) :
    exec (.encode f.streamId f.seq f.closing f.payload) s = .next (encodeWithEntropy f s) := by
  rw [exec, execEncode, if_neg (Bool.not_eq_false _ ▸ keyed), if_neg (Nat.not_lt.mpr fits)]

/-- R147: with FAIL there is only the error to raise. -/
theorem encodeWithEntropy_of_fail (f : Frame) {s : State} (answer : s.entAnswer = some .fail) :
    encodeWithEntropy f s = s.raise .entropyUnavailable := by
  rw [encodeWithEntropy, answer]

/-- R143, R144: three bytes from ENTROPY are the record's nonce. -/
theorem encodeWithEntropy_of_bytes (f : Frame) {n : Nonce} {s : State} (answer : s.entAnswer = some (.bytes n)) :
    encodeWithEntropy f s = s.respondOk (enc s.key n f) := by
  rw [encodeWithEntropy, answer]

/-- Settles O16: past its checks, ENCODE's answer to FAIL is the error's one-byte response. -/
theorem encodeReportsEntropyFailure : Obligations.EncodeReportsEntropyFailure := by
  unfold Obligations.EncodeReportsEntropyFailure
  intro f s keyed fits answer
  rw [exec_encode_of_checks keyed fits, encodeWithEntropy_of_fail f answer]
  rfl

/-- R144: past its checks, the ENCODE that ENTROPY answered with a nonce responds with that nonce's record. -/
theorem exec_encode_responds_enc {f : Frame} {n : Nonce} {s : State} (keyed : s.keyValid = true)
    (fits : f.payload.length ≤ Config.maxPayloadBytes) (answer : s.entAnswer = some (.bytes n)) :
    exec (.encode f.streamId f.seq f.closing f.payload) s = .next (s.respondOk (enc s.key n f)) := by
  rw [exec_encode_of_checks keyed fits, encodeWithEntropy_of_bytes f answer]

/-- Settles O28: the record field by field, and ENCODE's response that carries it. -/
theorem layoutOfTheEncodedRecord : Obligations.LayoutOfTheEncodedRecord := by
  unfold Obligations.LayoutOfTheEncodedRecord
  intro key n f fits r
  refine ⟨length_enc key n f, take_five_enc key n f, recordLength_enc key n f fits, recordHeader_enc key n f,
    slice_nonceField_enc key n f, recordPayload_enc key n f, ?_⟩
  rintro s keyed rfl answer
  exact ⟨_, exec_encode_responds_enc keyed fits answer, rfl⟩

end Sys2Proof.Machine

/-! ### The decoder core: proofs -/

namespace Sys2Proof

/-- R18: cutting first and slicing then is one slice further on. -/
theorem slice_drop (b : Bytes) (k i j : Nat) : slice (b.drop k) i j = slice b (k + i) (k + j) := by
  rw [slice, slice, List.drop_drop, Nat.add_sub_add_left]

/-- R18: XOR of byte sequences commutes. -/
theorem xorBytes_comm (a b : Bytes) : xorBytes a b = xorBytes b a :=
  List.zipWith_comm_of_comm BitVec.xor_comm

/-- R18: two sequences that XOR with `a` to the same bytes are equal. -/
theorem xorBytes_left_cancel {a x y : Bytes} (hx : x.length ≤ a.length) (hy : y.length ≤ a.length)
    (same : xorBytes a x = xorBytes a y) : x = y := by
  rw [xorBytes_comm a x, xorBytes_comm a y] at same
  rw [← xorBytes_cancel x a hx, same, xorBytes_cancel y a hy]

/-- R185: XOR with two masks in turn gives the bytes back exactly when the masks are equal. -/
theorem xorBytes_xorBytes_eq_self_iff {a x y : Bytes} (hx : x.length = a.length) (hy : y.length = a.length) :
    xorBytes (xorBytes a x) y = a ↔ x = y := by
  constructor
  · intro back
    have same : xorBytes a x = xorBytes a y := by
      rw [← xorBytes_cancel (xorBytes a x) y (by rw [length_xorBytes, hx, hy, Nat.min_self]), back]
    exact xorBytes_left_cancel hx.le hy.le same
  · rintro rfl
    exact xorBytes_cancel a x hx.ge

/-- R71: a frame is determined by its header image and its payload. -/
theorem frame_eq_iff (f g : Frame) : f = g ↔ f.payload = g.payload ∧ headerImage f = headerImage g := by
  constructor
  · rintro rfl
    exact ⟨rfl, rfl⟩
  · rintro ⟨payload, header⟩
    calc
      f = { recon (headerImage f) [] with payload := f.payload } := by rw [recon_headerImage]
      _ = { recon (headerImage g) [] with payload := g.payload } := by rw [header, payload]
      _ = g := by rw [recon_headerImage]

/-- R174: the decoder core passes the payload through. -/
@[simp] theorem dec_payload (key r : Bytes) : (dec key r).payload = recordPayload r := rfl

/-- R80: the payload is what follows the smallest record. -/
@[simp] theorem length_recordPayload (r : Bytes) : (recordPayload r).length = r.length - 17 := List.length_drop

/-- R80: the masked header image is nine bytes long. -/
theorem length_recordHeader {r : Bytes} (long : 17 ≤ r.length) : (recordHeader r).length = 9 := by
  rw [recordHeader, length_slice]
  omega

/-- R173, R174: the decoded header image is the record's, unmasked. -/
theorem headerImage_dec (key : Bytes) {r : Bytes} (long : 17 ≤ r.length) :
    headerImage (dec key r) = xorBytes (recordHeader r) (maskVector key (recordNonce r)) := by
  refine headerImage_recon _ r ?_
  rw [unmask, length_xorBytes, length_recordHeader long, length_maskVector, Nat.min_self]

/-- R175: the decoder core reads nothing of the first five bytes. -/
theorem dec_congr_drop_five (key : Bytes) {r r' : Bytes} (rest : r'.drop 5 = r.drop 5) : dec key r' = dec key r := by
  have slices (i j : Nat) : slice r' (5 + i) (5 + j) = slice r (5 + i) (5 + j) := by
    rw [← slice_drop, rest, slice_drop]
  have header : recordHeader r' = recordHeader r := slices 0 9
  have nonce : recordNonce r' = recordNonce r := congrArg nonceOf (slices 9 12)
  have payload : recordPayload r' = recordPayload r := by
    simpa only [recordPayload, List.drop_drop] using congrArg (List.drop 12) rest
  rw [dec, dec, unmask, unmask, recon, recon, header, nonce, payload]

/-! ### Decoding an encoded record -/

/-- R153, R171: the nonce extractor finds the encoder's nonce. -/
@[simp] theorem recordNonce_enc (key : Bytes) (n : Nonce) (f : Frame) : recordNonce (enc key n f) = n := by
  rw [recordNonce, slice_nonceField_enc, nonceOf_nonceBytes]

/-- R80: an emitted record has a record reading. -/
theorem minRecordBytes_le_length_enc (key : Bytes) (n : Nonce) (f : Frame) : 17 ≤ (enc key n f).length :=
  (length_enc key n f).ge.trans' (Nat.le_add_right _ _)

/-- R185: decoding under any key XORs that key's mask vector onto the encoder's. -/
theorem headerImage_dec_enc (k1 k2 : Bytes) (n : Nonce) (f : Frame) :
    headerImage (dec k2 (enc k1 n f)) = xorBytes (xorBytes (headerImage f) (maskVector k1 n)) (maskVector k2 n) := by
  rw [headerImage_dec k2 (minRecordBytes_le_length_enc k1 n f), recordHeader_enc, recordNonce_enc,
    maskApply]

/-- R182, R185: the frame comes back exactly when both keys give the nonce the same mask vector. -/
theorem dec_enc_eq_iff (k1 k2 : Bytes) (n : Nonce) (f : Frame) :
    dec k2 (enc k1 n f) = f ↔ maskVector k1 n = maskVector k2 n := by
  rw [frame_eq_iff, dec_payload, recordPayload_enc, headerImage_dec_enc, and_iff_right rfl]
  exact xorBytes_xorBytes_eq_self_iff (length_maskVector k1 n) (length_maskVector k2 n)

/-- R182: under the encoder's own key the frame comes back. -/
@[simp] theorem dec_enc (key : Bytes) (n : Nonce) (f : Frame) : dec key (enc key n f) = f :=
  (dec_enc_eq_iff key key n f).2 rfl

/-! ### Encoding a decoded record -/

/-- R12: a length field holds 16 bits. -/
theorem recordLength_le (r : Bytes) : recordLength r ≤ 65535 := Nat.le_of_lt_succ (be16 _).isLt

/-- R81: a canonical record begins with the preamble the encoder builds for its payload. -/
theorem preamble_eq_take_five {r : Bytes} (canonical : canonicalRecord r = true) :
    preamble (r.length - 17) = r.take 5 := by
  obtain ⟨long, constBytes, declared⟩ := (canonicalRecord_iff r).1 canonical
  have long : 17 ≤ r.length := long
  have field : BitVec.ofNat 16 (12 + (r.length - 17)) = be16 (slice r 3 5) := by
    rw [show 12 + (r.length - 17) = r.length - 5 by omega, ← declared, recordLength, BitVec.ofNat_toNat,
      BitVec.setWidth_eq]
  rw [preamble, field, bytes16_be16_of_length _ (by rw [length_slice]; omega), ← constBytes]
  exact slice_append_slice r 0 3 5 (by decide) (by decide)

/-- R183: encoding a decoded record again builds the preamble anew and keeps every byte after it. -/
theorem enc_dec (key : Bytes) {r : Bytes} (long : 17 ≤ r.length) :
    enc key (recordNonce r) (dec key r) = preamble (r.length - 17) ++ r.drop 5 := by
  have header : maskApply (headerImage (dec key r)) (maskVector key (recordNonce r)) = recordHeader r := by
    rw [headerImage_dec key long]
    exact xorBytes_cancel _ _ (by rw [length_recordHeader long, length_maskVector])
  have nonce : nonceBytes (recordNonce r) = slice r 14 17 :=
    nonceBytes_nonceOf _ (by rw [length_slice]; omega)
  have rest : recordHeader r ++ slice r 14 17 ++ recordPayload r = r.drop 5 := by
    rw [recordHeader, slice_append_slice r 5 14 17 (by decide) (by decide)]
    exact slice_append_drop r 5 17 (by decide)
  rw [enc, mux, header, nonce, dec_payload, length_recordPayload, ← rest]
  simp only [List.append_assoc]

/-- R183: a decoded record that the encoder can take is given back exactly when it is canonical. -/
theorem enc_dec_eq_iff (key : Bytes) {r : Bytes} (long : 17 ≤ r.length)
    (fits : (dec key r).payload.length ≤ Config.maxPayloadBytes) :
    enc key (recordNonce r) (dec key r) = r ↔ canonicalRecord r = true := by
  constructor
  · intro back
    have canonical := canonicalRecord_enc key (recordNonce r) (dec key r) fits
    rwa [back] at canonical
  · intro canonical
    rw [enc_dec key long, preamble_eq_take_five canonical, List.take_append_drop]

/-- Settles O31: the 16-bit length field bounds a canonical record, and re-encoding rebuilds its preamble. -/
theorem encoderUndoesDecoderOnCanonicalRecords : Obligations.EncoderUndoesDecoderOnCanonicalRecords := by
  unfold Obligations.EncoderUndoesDecoderOnCanonicalRecords
  intro key r long
  refine ⟨fun canonical => ?_, enc_dec_eq_iff key long⟩
  obtain ⟨-, -, declared⟩ := (canonicalRecord_iff r).1 canonical
  have bound : r.length - 5 ≤ 65535 := declared ▸ recordLength_le r
  have fits : r.length - 17 ≤ 65523 := by omega
  exact ⟨bound, by rwa [dec_payload, length_recordPayload]⟩

/-! ### The validator's answers -/

/-- R81, R177: no CFG rejects a canonical record. -/
theorem validate_of_canonical (chkPre chkLen : Bool) {r : Bytes} (canonical : canonicalRecord r = true) :
    validate chkPre chkLen r = none := by
  obtain ⟨long, constBytes, declared⟩ := (canonicalRecord_iff r).1 canonical
  exact (validate_eq_none chkPre chkLen r).2 ⟨long, fun _ => constBytes, fun _ => declared⟩

/-- R178: with both checks off the length test is the only one. -/
theorem validate_lenient {r : Bytes} (long : 17 ≤ r.length) : validate false false r = none :=
  (validate_eq_none false false r).2 ⟨long, nofun, nofun⟩

/-- R184, R232: the length test comes first, whatever CFG holds. -/
theorem validate_of_short (chkPre chkLen : Bool) {r : Bytes} (short : r.length < 17) :
    validate chkPre chkLen r = some .tooShort := by
  rw [validate, if_pos short]

/-- R235: past the length test, CHKPRE rejects another preamble. -/
theorem validate_of_badPreamble (chkLen : Bool) {r : Bytes} (long : 17 ≤ r.length)
    (other : recordConst r ≠ preambleConst) : validate true chkLen r = some .badPreamble := by
  rw [validate, if_neg (Nat.not_lt.mpr long), if_pos ⟨rfl, other⟩]

/-- R236: past the tests before it, CHKLEN rejects a length field that differs from the record's length. -/
theorem validate_of_lengthMismatch {chkPre : Bool} {r : Bytes} (long : 17 ≤ r.length)
    (constBytes : chkPre = true → recordConst r = preambleConst) (differs : recordLength r ≠ r.length - 5) :
    validate chkPre true r = some .lengthMismatch := by
  have preamblePasses : ¬(chkPre = true ∧ recordConst r ≠ preambleConst) := fun ⟨on, other⟩ => other (constBytes on)
  rw [validate, if_neg (Nat.not_lt.mpr long), if_neg preamblePasses, if_pos ⟨rfl, differs⟩]

end Sys2Proof

/-! ### The command DECODE: proofs -/

namespace Sys2Proof.Machine

/-- R237: without a key DECODE only raises its error. -/
theorem exec_decode_of_no_key {s : State} (noKey : s.keyValid = false) (r : Bytes) :
    exec (.decode r) s = .next (s.raise .keyNotLoaded) := by
  rw [exec, execDecode, if_pos noKey]

/-- R176: with a key, DECODE raises what the validator rejects the record with. -/
theorem exec_decode_of_rejected {r : Bytes} {s : State} {e : Err} (keyed : s.keyValid = true)
    (rejected : validate s.chkPre s.chkLen r = some e) : exec (.decode r) s = .next (s.raise e) := by
  rw [exec, execDecode, if_neg (Bool.not_eq_false _ ▸ keyed), rejected]

/-- R176: with a key, DECODE of a record that passes the validator responds with the frame image. -/
theorem exec_decode_of_passed {r : Bytes} {s : State} (keyed : s.keyValid = true)
    (passed : validate s.chkPre s.chkLen r = none) :
    exec (.decode r) s = .next (s.respondOk (frameImage (dec s.key r))) := by
  rw [exec, execDecode, if_neg (Bool.not_eq_false _ ▸ keyed), passed]

/-- R178: with both checks off, DECODE of any 17 bytes or more responds with the decoder core's frame. -/
theorem exec_decode_lenient {r : Bytes} {s : State} (keyed : s.keyValid = true) (preOff : s.chkPre = false)
    (lenOff : s.chkLen = false) (long : 17 ≤ r.length) :
    exec (.decode r) s = .next (s.respondOk (frameImage (dec s.key r))) := by
  refine exec_decode_of_passed keyed ?_
  rw [preOff, lenOff]
  exact validate_lenient long

/-- R182: DECODE of the record of a frame, under the key it was made with, responds with that frame, whatever CFG
holds. -/
theorem exec_decode_enc {n : Nonce} {f : Frame} {s : State} (keyed : s.keyValid = true)
    (fits : f.payload.length ≤ Config.maxPayloadBytes) :
    exec (.decode (enc s.key n f)) s = .next (s.respondOk (frameImage f)) := by
  rw [exec_decode_of_passed keyed (validate_of_canonical _ _ (canonicalRecord_enc s.key n f fits)), dec_enc]

/-- Settles O30: masking twice with one mask vector is the identity, and an emitted record passes every check. -/
theorem decoderUndoesEncoder : Obligations.DecoderUndoesEncoder := by
  unfold Obligations.DecoderUndoesEncoder
  intro key n f fits
  refine ⟨dec_enc key n f, ?_⟩
  rintro s keyed rfl
  exact exec_decode_enc keyed fits

/-- Settles O32: the two mask vectors stay on the header image, and cancel exactly when they are equal. -/
theorem wrongKeyGivesTheXorOfTheMasks : Obligations.WrongKeyGivesTheXorOfTheMasks := by
  unfold Obligations.WrongKeyGivesTheXorOfTheMasks
  intro k1 k2 n f _ g
  refine ⟨recordPayload_enc k1 n f, headerImage_dec_enc k1 k2 n f, not_congr (dec_enc_eq_iff k1 k2 n f), ?_⟩
  rintro s keyed rfl preOff lenOff
  exact exec_decode_lenient keyed preOff lenOff (minRecordBytes_le_length_enc k1 n f)

/-- Settles O19: the lenient validator passes the record, and the decoder core reads past its preamble. -/
theorem lenientDecodingIsExact : Obligations.LenientDecodingIsExact := by
  unfold Obligations.LenientDecodingIsExact
  intro r s keyed preOff lenOff long
  exact ⟨exec_decode_lenient keyed preOff lenOff long, fun _ => dec_congr_drop_five s.key⟩

/-- Settles O20: the missing key, then each of the validator's rejections under the tests that passed before it. -/
theorem decodeRejectionsInOrder : Obligations.DecodeRejectionsInOrder := by
  unfold Obligations.DecodeRejectionsInOrder
  intro r s
  refine ⟨fun noKey => exec_decode_of_no_key noKey r, ?short, ?badPreamble, ?lengthMismatch⟩
  case short =>
    intro keyed short
    exact exec_decode_of_rejected keyed (validate_of_short _ _ short)
  case badPreamble =>
    intro keyed long preOn other
    have preOn : s.chkPre = true := preOn
    exact exec_decode_of_rejected keyed (preOn ▸ validate_of_badPreamble _ long other)
  case lengthMismatch =>
    intro keyed long constBytes lenOn differs
    have lenOn : s.chkLen = true := lenOn
    exact exec_decode_of_rejected keyed (lenOn ▸ validate_of_lengthMismatch long constBytes differs)

end Sys2Proof.Machine

/-! ### A command's own checks: what it raises and what it answers otherwise -/

namespace Sys2Proof.Machine

/-- The error a command's own checks end in: orders 5 to 11 of R242, which the meanings make (log 12). -/
def State.commandError (s : State) : Instr → Option Err
  | .setkey key => if Config.keyMaxBytes < key.length then some .keyTooLong else none
  | .setcfg c => if cfgReserved c = 0#6 then none else some .malformedCommand
  | .derive _ => if s.keyValid = false then some .keyNotLoaded else none
  | .encode _ _ _ payload =>
    if s.keyValid = false then some .keyNotLoaded
    else if Config.maxPayloadBytes < payload.length then some .payloadTooLarge
    else if s.entAnswer = some .fail then some .entropyUnavailable
    else none
  | .decode record => if s.keyValid = false then some .keyNotLoaded else validate s.chkPre s.chkLen record

/-- How a command that raises no error leaves EXEC (R32, R200): with status OK, or as an ENCODE that has no answer yet
and holds for it. -/
def Passes (s t : State) (op : Byte) : Prop :=
  (s.entAnswer = none ∧ op = 0x04#8 ∧ t.phase = .waitEnt) ∨
    (t.phase = .respond ∧ ∃ body, t.resp = some (okCode :: body))

/-- R96: a response of status OK ends the command. -/
theorem passes_respond (s u : State) (op : Byte) (body : Bytes) : Passes s (u.respond (okCode :: body)) op :=
  .inr ⟨rfl, body, rfl⟩

/-- R146: an ENCODE without an answer holds. -/
theorem passes_requestEntropy {s : State} (f : Frame) (unanswered : s.entAnswer = none) :
    Passes s (s.requestEntropy f) 0x04#8 :=
  .inl ⟨unanswered, rfl, rfl⟩

/-- R200, R230: a command answers the error of its own checks with the status code and does nothing else; without an
error it passes. -/
theorem exec_commandError_cases {i : Instr} {s t : State} (answer : exec i s = .next t) :
    (∃ e, s.commandError i = some e ∧ t = s.respond [e.code]) ∨
      (s.commandError i = none ∧ Passes s t i.opcode) := by
  cases i with
  | setkey key =>
    obtain ⟨fits, rfl⟩ | ⟨long, rfl⟩ := execSetkey_cases answer
    · exact .inr ⟨if_neg (Nat.not_lt.mpr fits), passes_respond ..⟩
    · exact .inl ⟨_, if_pos long, rfl⟩
  | setcfg c =>
    obtain ⟨zero, rfl⟩ | ⟨nonzero, rfl⟩ := execSetcfg_cases answer
    · exact .inr ⟨if_pos zero, passes_respond ..⟩
    · exact .inl ⟨_, if_neg nonzero, rfl⟩
  | derive nonce =>
    obtain ⟨noKey, rfl⟩ | ⟨keyed, rfl⟩ := execDerive_cases answer
    · exact .inl ⟨_, if_pos noKey, rfl⟩
    · exact .inr ⟨by simp [State.commandError, keyed], passes_respond ..⟩
  | encode streamId seq closing payload =>
    obtain ⟨noKey, rfl⟩ | ⟨keyed, long, rfl⟩ | ⟨keyed, fits, entropy⟩ := execEncode_cases answer
    · exact .inl ⟨_, if_pos noKey, rfl⟩
    · exact .inl ⟨.payloadTooLarge, by simp [State.commandError, keyed, long], rfl⟩
    · have fits := Nat.not_lt.mpr fits
      obtain ⟨unanswered, rfl⟩ | ⟨fails, rfl⟩ | ⟨nonce, answered, rfl⟩ := entropy
      · exact .inr ⟨by simp [State.commandError, keyed, fits, unanswered], passes_requestEntropy _ unanswered⟩
      · exact .inl ⟨.entropyUnavailable, by simp [State.commandError, keyed, fits, fails], rfl⟩
      · exact .inr ⟨by simp [State.commandError, keyed, fits, answered], passes_respond ..⟩
  | decode record =>
    obtain ⟨noKey, rfl⟩ | ⟨keyed, ⟨e, rejected, rfl⟩ | ⟨passed, rfl⟩⟩ := execDecode_cases answer
    · exact .inl ⟨_, if_pos noKey, rfl⟩
    · exact .inl ⟨e, by simp [State.commandError, keyed, rejected], rfl⟩
    · exact .inr ⟨by simp [State.commandError, keyed, passed], passes_respond ..⟩

/-- R230: a command whose own checks fail answers the error's status code, and that is all it does. -/
theorem exec_of_commandError {i : Instr} {s : State} {e : Err} (failed : s.commandError i = some e) :
    exec i s = .next (s.respond [e.code]) := by
  obtain ⟨t, answer⟩ := exec_answers i s
  obtain ⟨e', failed', rfl⟩ | ⟨passed, -⟩ := exec_commandError_cases answer
  · rwa [Option.some.inj (failed.symm.trans failed')]
  · exact absurd (failed.symm.trans passed) (Option.some_ne_none e)

/-- R200: a command whose own checks all pass completes with status OK or holds for ENTROPY. -/
theorem exec_of_no_commandError {i : Instr} {s : State} (passed : s.commandError i = none) :
    ∃ t, exec i s = .next t ∧ Passes s t i.opcode := by
  obtain ⟨t, answer⟩ := exec_answers i s
  obtain ⟨e, failed, -⟩ | ⟨-, passes⟩ := exec_commandError_cases answer
  · exact absurd (failed.symm.trans passed) (Option.some_ne_none e)
  · exact ⟨t, answer, passes⟩

/-- Settles O9: the length test is SETKEY's only check, and a failed check writes no register. -/
theorem setkeyTooLongKeepsTheKey : Obligations.SetkeyTooLongKeepsTheKey := by
  unfold Obligations.SetkeyTooLongKeepsTheKey
  intro key s long
  have failed : s.commandError (.setkey key) = some .keyTooLong := if_pos long
  exact exec_of_commandError failed

/-- Settles O13: KEY_VALID is the first check of each of the three commands. -/
theorem commandsOnFramesNeedAKey : Obligations.CommandsOnFramesNeedAKey := by
  unfold Obligations.CommandsOnFramesNeedAKey
  intro i s noKey onFrames
  have failed : s.commandError i = some .keyNotLoaded := by
    obtain ⟨n, rfl⟩ | ⟨streamId, seq, closing, payload, rfl⟩ | ⟨r, rfl⟩ := onFrames <;> exact if_pos noKey
  exact exec_of_commandError failed

/-- Settles O17: with a key loaded the payload's length is ENCODE's next check, before the draw. -/
theorem encodeRejectsLongPayload : Obligations.EncodeRejectsLongPayload := by
  unfold Obligations.EncodeRejectsLongPayload
  intro f s keyed long
  have failed : s.commandError (.encode f.streamId f.seq f.closing f.payload) = some .payloadTooLarge :=
    (if_neg (Bool.not_eq_false _ ▸ keyed)).trans (if_pos long)
  exact exec_of_commandError failed

end Sys2Proof.Machine

/-! ### The precedence table: proofs -/

namespace Sys2Proof

/-- R86: byte 0 of a message that decodes to a command is the command's opcode. -/
theorem opcodeOf_of_decode {cmd : Bytes} {i : Instr} (decoded : decode cmd = .instr i) : opcodeOf cmd = i.opcode := by
  obtain ⟨-, -, ⟨op, rfl⟩ | ⟨op, -, rfl⟩ | ⟨op, -, rfl⟩ | ⟨op, -, rfl⟩ | ⟨op, rfl⟩⟩ := decode_instr_cases decoded <;>
    exact op

/-- R241: the length test is dispatch's first, whatever the opcode. -/
theorem decode_of_long {cmd : Bytes} (long : Config.maxMsgBytes < cmd.length) : decode cmd = .error .inputTooLarge :=
  if_pos long

/-- R239, R92: past the two length tests a byte 0 that is no opcode is an error. -/
theorem decode_of_illegal {cmd : Bytes} (nonempty : 1 ≤ cmd.length) (fits : cmd.length ≤ Config.maxMsgBytes)
    (illegal : opcodeOf cmd ∉ [0x01#8, 0x02#8, 0x03#8, 0x04#8, 0x05#8]) : decode cmd = .error .illegalCommand := by
  rw [decode, if_neg (Nat.not_lt.mpr fits), if_neg (Nat.ne_of_gt nonempty)]
  simp only [List.mem_cons, List.not_mem_nil, or_false, not_or] at illegal
  simp only [decodeOpcode, illegal, if_false]

end Sys2Proof

namespace Sys2Proof.Machine

/-- R242: a table whose first row's test holds gives that row's error, and otherwise what its later rows give. -/
theorem map_err_find?_cons (row : ErrorRow) (rows : List ErrorRow) (test : ErrorRow → Bool) :
    ((row :: rows).find? test).map (·.err) = if test row then some row.err else (rows.find? test).map (·.err) := by
  cases holds : test row <;> simp [holds]

/-- R242: orders 1 to 4 are the decoder's errors. -/
theorem firstError_of_decode_error {cmd : Bytes} {e : Err} (r : Regs) (a : EntropyAnswer)
    (rejected : decode cmd = .error e) : firstError r a cmd = some e := by
  simp only [firstError, errorTable, map_err_find?_cons]
  obtain ⟨long, rfl⟩ | ⟨empty, rfl⟩ | ⟨pos, fits, shape⟩ := decode_error_cases rejected
  · simp [long]
  · simp [empty]
  · have fits := Nat.not_lt.mpr fits
    have nonempty := pos.ne'
    obtain ⟨op, length, rfl⟩ | ⟨op, length, rfl⟩ | ⟨op, short, rfl⟩ | ⟨op, rfl⟩ := shape
    · simp [fits, nonempty, op, length]
    · simp [fits, nonempty, op, length]
    · simp [fits, nonempty, op, short]
    · simp [fits, nonempty, op]

/-- R242: past the decoder, the first row whose test holds is the first of the command's own checks that fails. -/
theorem firstError_of_decode_instr {s : State} {a : EntropyAnswer} {cmd : Bytes} {i : Instr}
    (answer : s.entAnswer = some .fail ↔ a = .fail) (decoded : decode cmd = .instr i) :
    firstError s.regs a cmd = s.commandError i := by
  simp only [firstError, errorTable, map_err_find?_cons]
  obtain ⟨pos, fits, command⟩ := decode_instr_cases decoded
  have fits := Nat.not_lt.mpr fits
  have nonempty := pos.ne'
  obtain ⟨op, rfl⟩ | ⟨op, length, rfl⟩ | ⟨op, length, rfl⟩ | ⟨op, length, rfl⟩ | ⟨op, rfl⟩ := command
  · simp [State.commandError, keyOperand, fits, nonempty, op]
  · by_cases zero : cfgReserved (byteAt cmd 1) = 0#6 <;>
      simp [State.commandError, Config.maxMsgBytes, cfgOperand, op, length, zero]
  · simp [State.commandError, State.regs, Config.maxMsgBytes, op, length]
  · simp [State.commandError, State.regs, payloadOperand, fits, nonempty, op, Nat.not_lt.mpr length, answer]
  · simp [State.commandError, State.regs, State.chkPre, State.chkLen, validate, recordOperand, recordConst,
      recordLength, preambleConst, Nat.sub_sub, fits, nonempty, op]

/-! ### The CFC's turn in EXEC: proofs -/

/-- The CFC moves next in `s`, and `s'` is the state without that turn (log 1). -/
def TurnUsed (s s' : State) : Prop :=
  (s.turns = [] ∧ s' = s) ∨ ∃ ts, s.turns = .cfc :: ts ∧ s' = { s with turns := ts }

/-- The turn used up is the CFC's and the first. -/
theorem TurnUsed.cfcMoves {s s' : State} (turn : TurnUsed s s') : CfcMoves s ∧ s' = s.withTurns s.turns.tail := by
  obtain ⟨turns, rfl⟩ | ⟨ts, turns, rfl⟩ := turn
  · exact ⟨.inl turns, by rw [turns, List.tail_nil, ← turns, withTurns_self]⟩
  · exact ⟨.inr ⟨ts, turns⟩, by rw [turns]; rfl⟩

/-- R200: on the CFC's turn in EXEC the step runs CUR's command in the state without that turn. -/
theorem TurnUsed.step_eq_execStep {s s' : State} (turn : TurnUsed s s') (inExec : s.phase = .exec) :
    step s = execStep s' := by
  obtain ⟨moves, rfl⟩ := turn.cfcMoves
  rw [step_of_cfcMoves moves, cfcStep, withTurns_phase, inExec]

/-- R200, R101: EXEC raises what the decoder answers. -/
theorem execStep_of_decode_error {s : State} {c : Cur} {e : Err} (held : s.cur = some c)
    (rejected : decode c.msg = .error e) : execStep s = .next (s.respond [e.code]) := by
  simp only [execStep, State.fetch, held, Option.map_some, rejected, raise_eq]

/-- R200: EXEC runs the command the message decodes to. -/
theorem execStep_of_decode_instr {s : State} {c : Cur} {i : Instr} (held : s.cur = some c)
    (decoded : decode c.msg = .instr i) : execStep s = exec i s := by
  simp only [execStep, State.fetch, held, Option.map_some, decoded]

/-- R32: EXEC answers a next state only with a message in CUR. -/
theorem exists_cur_of_execStep {s t : State} (answer : execStep s = .next t) : ∃ c, s.cur = some c := by
  cases held : s.cur with
  | none => simp [execStep, State.fetch, held] at answer
  | some c => exact ⟨c, rfl⟩

/-- R234: some answer, for the table to read, is FAIL exactly when ENTROPY's is (log 4). -/
theorem exists_answer_fail_iff (s : State) : ∃ a : EntropyAnswer, s.entAnswer = some .fail ↔ a = .fail := by
  by_cases fails : s.entAnswer = some .fail
  · exact ⟨.fail, iff_of_true fails rfl⟩
  · exact ⟨.bytes ⟨0, 0, 0⟩, iff_of_false fails nofun⟩

/-- R242, R230: when a row of the table holds, EXEC answers the code of the first one and does nothing else. -/
theorem execStep_of_firstError {s : State} {c : Cur} {a : EntropyAnswer} {e : Err} (held : s.cur = some c)
    (answer : s.entAnswer = some .fail ↔ a = .fail) (first : firstError s.regs a c.msg = some e) :
    execStep s = .next (s.respond [e.code]) := by
  cases decoded : decode c.msg with
  | error e' =>
    rw [firstError_of_decode_error _ _ decoded] at first
    exact execStep_of_decode_error held (Option.some.inj first ▸ decoded)
  | instr i =>
    rw [execStep_of_decode_instr held decoded]
    exact exec_of_commandError (firstError_of_decode_instr answer decoded ▸ first)

/-- R242: when no row of the table holds, the command passes. -/
theorem execStep_of_no_firstError {s : State} {c : Cur} {a : EntropyAnswer} (held : s.cur = some c)
    (answer : s.entAnswer = some .fail ↔ a = .fail) (passed : firstError s.regs a c.msg = none) :
    ∃ t, execStep s = .next t ∧ Passes s t (opcodeOf c.msg) := by
  cases decoded : decode c.msg with
  | error e => exact absurd (firstError_of_decode_error _ _ decoded ▸ passed) (Option.some_ne_none e)
  | instr i =>
    rw [execStep_of_decode_instr held decoded, opcodeOf_of_decode decoded]
    exact exec_of_no_commandError (firstError_of_decode_instr answer decoded ▸ passed)

/-- Settles O51: the table read off the decoder's and the command's own checks, on the state without the turn. -/
theorem errorsFollowTheTable : Obligations.ErrorsFollowTheTable := by
  unfold Obligations.ErrorsFollowTheTable
  intro s s' c a inExec held turn given
  have turn : TurnUsed s s' := turn
  have failIff : s.entAnswer = some .fail ↔ a = .fail := by
    obtain given | ⟨given, rfl⟩ := given <;> simp [given]
  rw [turn.step_eq_execStep inExec]
  obtain ⟨-, rfl⟩ := turn.cfcMoves
  have held : (s.withTurns s.turns.tail).cur = some c := held
  refine ⟨fun e first => execStep_of_firstError held failIff first, fun passed => ?_⟩
  obtain ⟨t, answer, ⟨unanswered, op, waits⟩ | responds⟩ := execStep_of_no_firstError held failIff passed
  · obtain ⟨-, rfl⟩ := given.resolve_left (fun some_a => nomatch some_a.symm.trans unanswered)
    exact ⟨t, answer, .inl ⟨unanswered, decide_eq_true ⟨op, passed⟩, waits⟩⟩
  · exact ⟨t, answer, .inr responds⟩

/-- Settles O22: a response whose status is not OK comes from a row of the table, which writes nothing but it. -/
theorem failedCommandWritesNothing : Obligations.FailedCommandWritesNothing := by
  unfold Obligations.FailedCommandWritesNothing
  intro s s' t status body inExec turn stepped responds resp failed
  rw [TurnUsed.step_eq_execStep turn inExec] at stepped
  obtain ⟨c, held⟩ := exists_cur_of_execStep stepped
  obtain ⟨a, failIff⟩ := exists_answer_fail_iff s'
  cases first : firstError s'.regs a c.msg with
  | some e =>
    obtain rfl := Host.Outcome.next.inj ((execStep_of_firstError held failIff first).symm.trans stepped)
    obtain ⟨rfl, rfl⟩ := List.cons.inj (Option.some.inj resp)
    exact ⟨rfl, rfl⟩
  | none =>
    obtain ⟨t', answer, passes⟩ := execStep_of_no_firstError held failIff first
    obtain rfl := Host.Outcome.next.inj (answer.symm.trans stepped)
    obtain ⟨-, -, waits⟩ | ⟨-, okBody, okResp⟩ := passes
    · exact absurd (waits.symm.trans responds) (by decide)
    · have ok := (List.cons.inj (Option.some.inj (okResp.symm.trans resp))).1
      exact absurd ok.symm failed

/-- Settles O5: the two messages the decoder rejects by length and by opcode, on the state without the turn. -/
theorem dispatchRejectsLongAndIllegalMessages : Obligations.DispatchRejectsLongAndIllegalMessages := by
  unfold Obligations.DispatchRejectsLongAndIllegalMessages
  intro s s' c inExec held turn
  have turn : TurnUsed s s' := turn
  rw [turn.step_eq_execStep inExec]
  obtain ⟨-, rfl⟩ := turn.cfcMoves
  have held : (s.withTurns s.turns.tail).cur = some c := held
  exact ⟨fun long => execStep_of_decode_error held (decode_of_long long),
    fun nonempty fits illegal => execStep_of_decode_error held (decode_of_illegal nonempty fits illegal)⟩

end Sys2Proof.Machine

/-! ### RESET's turn: proofs -/

namespace Sys2Proof.Machine

/-- R271: on RESET's turn one step asserts RESET, on the state without that turn. -/
theorem step_of_reset {s : State} {ts : List Turn} (turn : s.turns = .reset :: ts) :
    step s = .next (s.withTurns ts).assertReset := by
  simp only [step, turn]

/-- Settles O34: asserted RESET leaves every element of the CFC as in the reset state, whose values O33 gives. -/
theorem resetTurnClearsTheCodec : Obligations.ResetTurnClearsTheCodec := by
  unfold Obligations.ResetTurnClearsTheCodec
  intro s ts turn
  refine ⟨(s.withTurns ts).assertReset, step_of_reset turn, ?_⟩
  simp only [assertReset_keyBytes, assertReset_keyLen, assertReset_keyValid, assertReset_cfg, assertReset_phase,
    assertReset_cur, assertReset_entPending, assertReset_resp]
  exact resetValues

end Sys2Proof.Machine

/-! ### Encoding and decoding of commands: proofs -/

namespace Sys2Proof

/-- R86 to R91: every command's message has the shape its format gives. -/
theorem encodeShape : ∀ i : Instr, Laws.EncodeShape.Statement i
  | .setkey key => Laws.EncodeShape.setkey key
  | .setcfg c => Laws.EncodeShape.setcfg c
  | .derive nonce => Laws.EncodeShape.derive nonce
  | .encode streamId seq closing payload => Laws.EncodeShape.encode streamId seq closing payload
  | .decode record => Laws.EncodeShape.decode record

theorem opcodeOf_encode (i : Instr) : opcodeOf (encode i) = i.opcode := (encodeShape i).1

theorem length_encode (i : Instr) : (encode i).length = Laws.messageLength i := (encodeShape i).2

/-- R86: no command's message is empty. -/
theorem messageLength_pos (i : Instr) : 0 < Laws.messageLength i := by
  cases i <;> simp only [Laws.messageLength] <;> omega

/-- R14, R86: a well-formed command's message keeps to MAX_MSG_BYTES. -/
theorem messageLength_le_of_wellFormed {i : Instr} (wf : i.WellFormed) :
    Laws.messageLength i ≤ Config.maxMsgBytes := by
  cases i with
  | setkey key =>
    have short : key.length ≤ 64 := of_decide_eq_true wf
    simp only [Laws.messageLength, Config.maxMsgBytes]
    omega
  | setcfg c => exact show 2 ≤ 65541 by decide
  | derive nonce => exact show 4 ≤ 65541 by decide
  | encode streamId seq closing payload =>
    have short : payload.length ≤ 65523 := of_decide_eq_true wf
    simp only [Laws.messageLength, Config.maxMsgBytes]
    omega
  | decode record => exact of_decide_eq_true wf

/-- R101: past the two length tests, decoding is by the opcode. -/
theorem decode_eq_decodeOpcode {cmd : Bytes} (nonempty : 0 < cmd.length) (fits : cmd.length ≤ Config.maxMsgBytes) :
    decode cmd = decodeOpcode cmd := by
  rw [decode, if_neg (Nat.not_lt.mpr fits), if_neg nonempty.ne']

/-- R87 to R91, R102: every operand stands in the message where the decoder reads it. -/
theorem decodeOpcode_encode (i : Instr) : decodeOpcode (encode i) = .instr i := by
  rw [decodeOpcode, opcodeOf_encode]
  cases i with
  | setkey key => rfl
  | setcfg c => rfl
  | derive nonce => rfl
  | encode streamId seq closing payload =>
    have long : ¬(encode (.encode streamId seq closing payload)).length < 10 := by
      rw [length_encode, Laws.messageLength]
      omega
    have streamIdBytes : slice (encode (.encode streamId seq closing payload)) 1 5 = bytes32 streamId := rfl
    have seqBytes : slice (encode (.encode streamId seq closing payload)) 5 9 = bytes32 seq := rfl
    simp only [Instr.opcode, decodeEncode, long, streamIdOperand, seqOperand, streamIdBytes, seqBytes, be32_bytes32]
    rfl
  | decode record => rfl

/-- R101: decoding undoes encoding whenever the message is not too long, whatever other limit the command breaks
(log 12). -/
theorem decode_encode_of_messageLength {i : Instr} (fits : Laws.messageLength i ≤ Config.maxMsgBytes) :
    decode (encode i) = .instr i := by
  rw [decode_eq_decodeOpcode, decodeOpcode_encode] <;> rw [length_encode]
  · exact messageLength_pos i
  · exact fits

/-- R101: decoding undoes encoding on well-formed commands. -/
theorem decode_encode {i : Instr} (wf : i.WellFormed) : decode (encode i) = .instr i :=
  decode_encode_of_messageLength (messageLength_le_of_wellFormed wf)

/-- Settles O1: a well-formed command's message is not too long, and each operand is read where it was written. -/
theorem decodeOfEncodeIsTheCommand : Obligations.DecodeOfEncodeIsTheCommand := by
  unfold Obligations.DecodeOfEncodeIsTheCommand
  exact fun _ => decode_encode

/-- Settles O3: each written message is the encoder's message of a well-formed command. -/
theorem writtenMessagesDecode : Obligations.WrittenMessagesDecode := by
  unfold Obligations.WrittenMessagesDecode
  exact ⟨decode_encode (i := .setkey [0xde#8, 0xad#8, 0xbe#8, 0xef#8]) rfl, decode_encode (i := .setcfg 0x03#8) rfl,
    decode_encode (i := .derive ⟨0x01#8, 0x02#8, 0x03#8⟩) rfl,
    decode_encode (i := .encode 0x12345678#32 0x9abcdef0#32 0x80#8 [0x00#8]) rfl,
    decode_encode (i := .decode [0x17#8, 0x03#8]) rfl⟩

/-! ### A decoded message is its command's message -/

/-- R18: one byte, cut out. -/
theorem slice_singleton {b : Bytes} {i : Nat} (h : i < b.length) : slice b i (i + 1) = [byteAt b i] := by
  rw [slice, byteAt_eq_getElem b i h, List.drop_eq_getElem_cons h, Nat.add_sub_cancel_left, List.take_succ_cons,
    List.take_zero]

/-- R90, R102: ENCODE's operands are the whole message after its opcode. -/
theorem encode_operands {cmd : Bytes} (long : 10 ≤ cmd.length) :
    bytes32 (streamIdOperand cmd) ++ bytes32 (seqOperand cmd) ++ [closingOperand cmd] ++ payloadOperand cmd =
      cmd.drop 1 := by
  have length_field (i : Nat) (h : i + 4 ≤ 10) : (slice cmd i (i + 4)).length = 4 := by
    rw [length_slice]
    omega
  rw [streamIdOperand, seqOperand, closingOperand, payloadOperand,
    bytes32_be32_of_length _ (length_field 1 (by decide)),
    bytes32_be32_of_length _ (length_field 5 (by decide)), ← slice_singleton long,
    slice_append_slice _ _ _ _ (by decide) (by decide), slice_append_slice _ _ _ _ (by decide) (by decide),
    slice_append_drop _ _ _ (by decide)]

/-- R89, R102: DERIVE's nonce is the whole message after its opcode. -/
theorem derive_operand {cmd : Bytes} (length : cmd.length = 4) : nonceBytes (nonceOperand cmd) = cmd.drop 1 := by
  have all : slice cmd 1 4 = cmd.drop 1 := List.take_of_length_le (by rw [List.length_drop, length])
  rw [nonceOperand, all, nonceBytes_nonceOf _ (by rw [List.length_drop, length])]

/-- R88, R102: SETCFG's byte is the whole message after its opcode. -/
theorem setcfg_operand {cmd : Bytes} (length : cmd.length = 2) : [cfgOperand cmd] = cmd.drop 1 := by
  rw [cfgOperand, ← slice_singleton (by omega)]
  exact List.take_of_length_le (by rw [List.length_drop, length])

/-- R86: a command's message is its opcode and what the operands are assembled from. -/
theorem encode_of_decode {cmd : Bytes} {i : Instr} (decoded : decode cmd = .instr i) : encode i = cmd := by
  obtain ⟨pos, -, command⟩ := decode_instr_cases decoded
  have whole : opcodeOf cmd :: cmd.drop 1 = cmd := (cons_of_length_pos pos).symm
  obtain ⟨op, rfl⟩ | ⟨op, length, rfl⟩ | ⟨op, length, rfl⟩ | ⟨op, long, rfl⟩ | ⟨op, rfl⟩ := command <;>
    rw [op] at whole
  · exact whole
  · rwa [← setcfg_operand length] at whole
  · rwa [← derive_operand length] at whole
  · rwa [← encode_operands long] at whole
  · exact whole

/-- Settles O2: opcode and operands of a decoded message make up the message. -/
theorem encodeOfDecodeIsTheMessage : Obligations.EncodeOfDecodeIsTheMessage := by
  unfold Obligations.EncodeOfDecodeIsTheMessage
  exact fun _ _ => encode_of_decode

/-! ### The decoder's errors -/

/-- A legal-length message whose length its opcode's format does not allow (R86, R88 to R90). -/
def WrongFixedLength (cmd : Bytes) : Prop :=
  (opcodeOf cmd = 0x02#8 ∧ cmd.length ≠ 2) ∨ (opcodeOf cmd = 0x03#8 ∧ cmd.length ≠ 4) ∨
    (opcodeOf cmd = 0x04#8 ∧ cmd.length < 10)

/-- R240: an empty message and a wrong fixed length are malformed. -/
theorem decode_of_malformed {cmd : Bytes}
    (malformed : cmd.length = 0 ∨ (cmd.length ≤ Config.maxMsgBytes ∧ WrongFixedLength cmd)) :
    decode cmd = .error .malformedCommand := by
  by_cases empty : cmd.length = 0
  · rw [decode, if_neg (by omega), if_pos empty]
  · obtain ⟨fits, shape⟩ := malformed.resolve_left empty
    rw [decode_eq_decodeOpcode (Nat.pos_of_ne_zero empty) fits, decodeOpcode]
    obtain ⟨op, length⟩ | ⟨op, length⟩ | ⟨op, short⟩ := shape
    · simp [op, decodeSetcfg, length]
    · simp [op, decodeDerive, length]
    · simp [op, decodeEncode, short]

/-- R240: a malformed message is an empty one or one of a wrong fixed length. -/
theorem malformed_of_decode {cmd : Bytes} (rejected : decode cmd = .error .malformedCommand) :
    cmd.length = 0 ∨ (cmd.length ≤ Config.maxMsgBytes ∧ WrongFixedLength cmd) := by
  obtain ⟨-, other⟩ | ⟨empty, -⟩ | ⟨-, fits, shape⟩ := decode_error_cases rejected
  · cases other
  · exact .inl empty
  · obtain ⟨op, length, -⟩ | ⟨op, length, -⟩ | ⟨op, short, -⟩ | ⟨-, other⟩ := shape
    · exact .inr ⟨fits, .inl ⟨op, length⟩⟩
    · exact .inr ⟨fits, .inr (.inl ⟨op, length⟩)⟩
    · exact .inr ⟨fits, .inr (.inr ⟨op, short⟩)⟩
    · cases other

/-- R241: INPUT_TOO_LARGE is the answer to long messages alone. -/
theorem long_of_decode {cmd : Bytes} (rejected : decode cmd = .error .inputTooLarge) :
    Config.maxMsgBytes < cmd.length := by
  obtain ⟨long, -⟩ | ⟨-, other⟩ | ⟨-, -, ⟨-, -, other⟩ | ⟨-, -, other⟩ | ⟨-, -, other⟩ | ⟨-, other⟩⟩ :=
    decode_error_cases rejected
  · exact long
  all_goals cases other

/-- R239: ILLEGAL_COMMAND is the answer to messages of a legal length without an opcode alone. -/
theorem illegal_of_decode {cmd : Bytes} (rejected : decode cmd = .error .illegalCommand) :
    1 ≤ cmd.length ∧ cmd.length ≤ Config.maxMsgBytes ∧
      opcodeOf cmd ∉ [0x01#8, 0x02#8, 0x03#8, 0x04#8, 0x05#8] := by
  obtain ⟨-, other⟩ | ⟨-, other⟩ | ⟨pos, fits, ⟨-, -, other⟩ | ⟨-, -, other⟩ | ⟨-, -, other⟩ | ⟨illegal, -⟩⟩ :=
    decode_error_cases rejected
  case inr.inr.inr.inr.inr => exact ⟨pos, fits, illegal⟩
  all_goals cases other

/-- R242: the decoder makes the checks of orders 1 to 4 and no other (log 12). -/
theorem decode_error_eq {cmd : Bytes} {e : Err} (rejected : decode cmd = .error e) :
    e = .inputTooLarge ∨ e = .illegalCommand ∨ e = .malformedCommand := by
  obtain ⟨-, rfl⟩ | ⟨-, rfl⟩ | ⟨-, -, ⟨-, -, rfl⟩ | ⟨-, -, rfl⟩ | ⟨-, -, rfl⟩ | ⟨-, rfl⟩⟩ :=
    decode_error_cases rejected <;> decide

/-- Settles O4: each error, from its messages and back. -/
theorem shapeErrorsOfMessages : Obligations.ShapeErrorsOfMessages := by
  unfold Obligations.ShapeErrorsOfMessages
  intro cmd
  exact ⟨⟨long_of_decode, decode_of_long⟩,
    ⟨illegal_of_decode, fun ⟨nonempty, fits, illegal⟩ => decode_of_illegal nonempty fits illegal⟩,
    ⟨malformed_of_decode, decode_of_malformed⟩, fun _ => decode_error_eq, rfl, rfl, rfl⟩

/-! ### Assembled lines: proofs -/

/-- R99: three bytes, read as one 24-bit immediate, are given back by their shifts. -/
theorem assemble_derive (n0 n1 n2 : Byte) :
    assemble (.derive (n0.toNat * 65536 + n1.toNat * 256 + n2.toNat)) = some (encode (.derive ⟨n0, n1, n2⟩)) := by
  have h0 := n0.isLt
  have h1 := n1.isLt
  have h2 := n2.isLt
  generalize imm : n0.toNat * 65536 + n1.toNat * 256 + n2.toNat = m
  have byte0 : BitVec.ofNat 8 (m / 2 ^ 16) = n0 := by bv_omega
  have byte1 : BitVec.ofNat 8 (m / 2 ^ 8) = n1 := by bv_omega
  have byte2 : BitVec.ofNat 8 m = n2 := by bv_omega
  rw [assemble, if_pos (by omega), byte0, byte1, byte2]
  rfl

/-- R99, log 12: every byte makes a SETCFG, whatever its reserved bits. -/
theorem map_decode_assemble_setcfg (c : Nat) :
    (assemble (.setcfg c)).map decode = if c < 256 then some (.instr (.setcfg (BitVec.ofNat 8 c))) else none := by
  by_cases h : c < 256
  · have message : assemble (.setcfg c) = some (encode (.setcfg (BitVec.ofNat 8 c))) := if_pos h
    rw [if_pos h, message]
    exact congrArg some (decode_encode_of_messageLength (i := .setcfg _) (show 2 ≤ 65541 by decide))
  · have noMessage : assemble (.setcfg c) = none := if_neg h
    rw [if_neg h, noMessage, Option.map_none]

/-- R99: an ENCODE line whose three immediates fit assembles to the command's message. -/
theorem map_decode_assemble_encode (a b c : Nat) {p : Bytes} (fits : p.length ≤ Config.maxPayloadBytes) :
    (assemble (.encode a b c p)).map decode =
      if a < 2 ^ 32 ∧ b < 2 ^ 32 ∧ c < 2 ^ 8 then
        some (.instr (.encode (BitVec.ofNat 32 a) (BitVec.ofNat 32 b) (BitVec.ofNat 8 c) p))
      else none := by
  by_cases h : a < 2 ^ 32 ∧ b < 2 ^ 32 ∧ c < 2 ^ 8
  · rw [assemble, if_pos h, if_pos h]
    exact congrArg some
      (decode_encode (i := .encode (BitVec.ofNat 32 a) (BitVec.ofNat 32 b) (BitVec.ofNat 8 c) p) (decide_eq_true fits))
  · rw [assemble, if_neg h, if_neg h, Option.map_none]

/-- Settles O6: a line whose immediates fit assembles to its command's message, which decodes to the command. -/
theorem assembledLinesDecode : Obligations.AssembledLinesDecode := by
  unfold Obligations.AssembledLinesDecode
  refine ⟨?setkey, map_decode_assemble_setcfg, ?derive, ?deriveRange, fun a b c _ => map_decode_assemble_encode a b c,
    ?decode, fun _ => rfl, rfl, rfl⟩
  case setkey =>
    intro key fits
    exact congrArg some (decode_encode (i := .setkey key) (decide_eq_true fits))
  case derive =>
    intro n0 n1 n2
    rw [assemble_derive, Option.map_some, decode_encode rfl]
  case deriveRange =>
    intro n tooLarge
    exact if_neg (Nat.not_lt.mpr tooLarge)
  case decode =>
    intro r fits
    exact congrArg some (decode_encode (i := .decode r) (decide_eq_true fits))

end Sys2Proof

/-! ### What each command answers: proofs -/

namespace Sys2Proof

/-- R115: a key of nine bytes or more fills the mask vector of the derivation that is not normative. -/
theorem maskVectorOf_goSumAppend {key : Bytes} (n : Nonce) (long : 9 ≤ key.length) :
    maskVectorOf .goSumAppend key n = key.take 9 := by
  rw [maskVectorOf, digest, goSum, List.append_assoc, slice_append_left _ _ _ _ long, slice, List.drop_zero]

/-- Settles O26: the key stands first in GO_SUM_APPEND's digest. -/
theorem goSumMasksShowTheKey : Obligations.GoSumMasksShowTheKey := by
  unfold Obligations.GoSumMasksShowTheKey
  exact fun _ n => maskVectorOf_goSumAppend n

end Sys2Proof

namespace Sys2Proof.Machine

/-- Settles O7: the decoder's two answers, on the state without the turn. -/
theorem stepRunsTheDecodedCommand : Obligations.StepRunsTheDecodedCommand := by
  unfold Obligations.StepRunsTheDecodedCommand
  intro s s' c inExec held turn
  have turn : TurnUsed s s' := turn
  rw [turn.step_eq_execStep inExec]
  obtain ⟨-, rfl⟩ := turn.cfcMoves
  have held : (s.withTurns s.turns.tail).cur = some c := held
  exact ⟨fun _ decoded => execStep_of_decode_instr held decoded,
    fun _ rejected => execStep_of_decode_error held rejected⟩

/-- R202: SETKEY of a key that fits loads it and completes. -/
theorem exec_setkey_of_fits {key : Bytes} (fits : key.length ≤ Config.keyMaxBytes) (s : State) :
    exec (.setkey key) s = .next ((s.loadKey key).respond [okCode]) :=
  if_neg (Nat.not_lt.mpr fits)

/-- R202: KEY_LEN after loading a key that fits. -/
theorem loadKey_keyLen_val (s : State) {key : Bytes} (fits : key.length ≤ Config.keyMaxBytes) :
    (s.loadKey key).keyLen.val = key.length :=
  Nat.mod_eq_of_lt (Nat.lt_succ_of_le fits)

/-- R202: KEY_BYTES after loading a key, byte by byte; past the key's end `byteAt` is zero. -/
theorem loadKeyBytes_getElem (key : Bytes) (i : Fin Config.keyMaxBytes) : (loadKeyBytes key)[i] = byteAt key i.val :=
  Vector.getElem_ofFn i.isLt

/-- Settles O8: the state with the key loaded and the response given, field by field. -/
theorem setkeyLoadsTheKey : Obligations.SetkeyLoadsTheKey := by
  unfold Obligations.SetkeyLoadsTheKey
  intro key s fits
  refine ⟨_, exec_setkey_of_fits fits s, ?key, ?keyLen, ?keyBytes, ?frame⟩
  case key => rw [respond_key, loadKey_key s key fits]
  case keyLen => rw [respond_keyLen, loadKey_keyLen_val s fits]
  case keyBytes => exact loadKeyBytes_getElem key
  case frame =>
    unfold State.loadKey
    rfl

/-- R203: SETCFG of a byte without reserved bits writes it and completes. -/
theorem exec_setcfg_of_unreserved {c : Byte} (zero : cfgReserved c = 0#6) (s : State) :
    exec (.setcfg c) s = .next ((s.loadCfg c).respond [okCode, c]) :=
  if_neg (not_not.mpr zero)

/-- Settles O10: the state with CFG written and returned. -/
theorem setcfgWritesAndReturnsCfg : Obligations.SetcfgWritesAndReturnsCfg := by
  unfold Obligations.SetcfgWritesAndReturnsCfg
  exact fun _ s zero => exec_setcfg_of_unreserved zero s

/-- R116: DERIVE with a key loaded completes with the nonce's mask vector. -/
theorem exec_derive_of_keyed {s : State} (keyed : s.keyValid = true) (n : Nonce) :
    exec (.derive n) s = .next (s.respond (okCode :: maskVector s.key n)) :=
  if_neg (Bool.not_eq_false _ ▸ keyed)

/-- Settles O12: the mask vector is the first nine digest bytes. -/
theorem deriveRespondsTheMaskVector : Obligations.DeriveRespondsTheMaskVector := by
  unfold Obligations.DeriveRespondsTheMaskVector
  intro n s keyed
  rw [exec_derive_of_keyed keyed, maskVector_eq_take_sha1]
  rfl

/-- R146: without an answer the draw is a request. -/
theorem encodeWithEntropy_of_none (f : Frame) {s : State} (unanswered : s.entAnswer = none) :
    encodeWithEntropy f s = s.requestEntropy f := by
  rw [encodeWithEntropy, unanswered]

/-- R145, R146: past its checks, the ENCODE without an answer asks for one. -/
theorem exec_encode_requests {f : Frame} {s : State} (keyed : s.keyValid = true)
    (fits : f.payload.length ≤ Config.maxPayloadBytes) (unanswered : s.entAnswer = none) :
    exec (.encode f.streamId f.seq f.closing f.payload) s = .next (s.requestEntropy f) := by
  rw [exec_encode_of_checks keyed fits, encodeWithEntropy_of_none f unanswered]

/-- Settles O14: the state with the request made, field by field. -/
theorem encodeAsksEntropyAndHolds : Obligations.EncodeAsksEntropyAndHolds := by
  unfold Obligations.EncodeAsksEntropyAndHolds
  exact fun _ _ => exec_encode_requests

/-- Settles O15: the encoder core's record, written out. -/
theorem encodeRespondsTheRecord : Obligations.EncodeRespondsTheRecord := by
  unfold Obligations.EncodeRespondsTheRecord
  intro f n s keyed fits answer
  rw [exec_encode_responds_enc keyed fits answer, enc_eq, maskApply, maskVector_eq_take_sha1]
  rfl

/-- Settles O18: the validator passes the record, and the frame image is the unmasked header and the payload. -/
theorem decodeRespondsTheFrame : Obligations.DecodeRespondsTheFrame := by
  unfold Obligations.DecodeRespondsTheFrame
  intro r s keyed long constBytes declared
  have nonce : nonceBytes (recordNonce r) = slice r 14 17 :=
    nonceBytes_nonceOf _ (by rw [length_slice]; omega)
  rw [exec_decode_of_passed keyed ((validate_eq_none _ _ r).2 ⟨long, constBytes, declared⟩), frameImage,
    headerImage_dec s.key long, maskVector_eq_take_sha1, nonce]
  rfl

/-! ### What a command reads: proofs -/

/-- What a command does to the state, once its operands and what it reads are known. -/
inductive Effect
  | respond (r : Bytes)
  | loadKey (key : Bytes)
  | loadCfg (c : Byte)
  | requestEntropy (f : Frame)

/-- The effect, on a state. -/
def Effect.apply (s : State) : Effect → State
  | .respond r => s.respond r
  | .loadKey key => (s.loadKey key).respond [okCode]
  | .loadCfg c => (s.loadCfg c).respond [okCode, c]
  | .requestEntropy f => s.requestEntropy f

/-- Two states agree in what a command reads (R28, R110, R175): SETKEY and SETCFG read nothing, DERIVE and ENCODE the
key, ENCODE ENTROPY's answer, and DECODE alone CFG. -/
def AgreeOnReads (s s' : State) : Instr → Prop
  | .setkey _ | .setcfg _ => True
  | .derive _ => s.keyValid = s'.keyValid ∧ s.key = s'.key
  | .encode _ _ _ _ => s.keyValid = s'.keyValid ∧ s.key = s'.key ∧ s.entAnswer = s'.entAnswer
  | .decode _ => s.regs = s'.regs

/-- R57, R60: a command does the same to two states that agree in what it reads. -/
theorem exec_congr {i : Instr} {s s' : State} (agree : AgreeOnReads s s' i) :
    ∃ e : Effect, exec i s = .next (e.apply s) ∧ exec i s' = .next (e.apply s') := by
  cases i with
  | setkey key =>
    simp only [exec, execSetkey]
    split
    · exact ⟨.respond _, rfl, rfl⟩
    · exact ⟨.loadKey key, rfl, rfl⟩
  | setcfg c =>
    simp only [exec, execSetcfg]
    split
    · exact ⟨.respond _, rfl, rfl⟩
    · exact ⟨.loadCfg c, rfl, rfl⟩
  | derive nonce =>
    obtain ⟨valid, key⟩ := agree
    simp only [exec, execDerive, valid, key]
    split <;> exact ⟨.respond _, rfl, rfl⟩
  | encode streamId seq closing payload =>
    obtain ⟨valid, key, answer⟩ := agree
    simp only [exec, execEncode, encodeWithEntropy, valid, key, answer]
    split
    · exact ⟨.respond _, rfl, rfl⟩
    · split
      · exact ⟨.respond _, rfl, rfl⟩
      · split
        · exact ⟨.requestEntropy _, rfl, rfl⟩
        · exact ⟨.respond _, rfl, rfl⟩
        · exact ⟨.respond _, rfl, rfl⟩
  | decode record =>
    obtain ⟨valid, key, cfg⟩ := Regs.mk.inj agree
    simp only [exec, execDecode, State.chkPre, State.chkLen, valid, key, cfg]
    split
    · exact ⟨.respond _, rfl, rfl⟩
    · split <;> exact ⟨.respond _, rfl, rfl⟩

end Sys2Proof.Machine

namespace Sys2Proof.Machine

/-- R22: two states that differ in KEY_BYTES past KEY_LEN agree in what every command reads. -/
theorem agreeOnReads_withKeyBytes {s : State} {other : Vector Byte Config.keyMaxBytes}
    (sameKey : ({ s with keyBytes := other } : State).key = s.key) (i : Instr) :
    AgreeOnReads s { s with keyBytes := other } i := by
  cases i with
  | setkey key => trivial
  | setcfg c => trivial
  | derive nonce => exact ⟨rfl, sameKey.symm⟩
  | encode streamId seq closing payload => exact ⟨rfl, sameKey.symm, rfl⟩
  | decode record => simp only [AgreeOnReads, State.regs, sameKey]

/-- Settles O52: a command reads the key, never the register past it, and its effect writes the whole register or
none of it. -/
theorem keyBytesPastTheLengthAreNotRead : Obligations.KeyBytesPastTheLengthAreNotRead := by
  unfold Obligations.KeyBytesPastTheLengthAreNotRead
  intro i s t other sameKey answer
  have sameKey : ({ s with keyBytes := other } : State).key = s.key := sameKey
  obtain ⟨e, here, there⟩ := exec_congr (agreeOnReads_withKeyBytes sameKey i)
  obtain rfl := Host.Outcome.next.inj (here.symm.trans answer)
  refine ⟨_, there, ?key, ?rest⟩
  case key =>
    cases e with
    | loadKey key =>
      simp only [Effect.apply, State.key, respond_keyBytes, respond_keyLen, loadKey_keyBytes, loadKey_keyLen]
    | _ => exact sameKey
  case rest =>
    cases e with
    | loadKey key => simp only [Effect.apply, State.loadKey, State.respond]
    | _ => rfl

/-- R28, R111: two states that differ in CFG agree in what every command but DECODE reads. -/
theorem agreeOnReads_withCfg {i : Instr} (notDecode : ∀ r, i ≠ .decode r) (s : State) (other : Byte) :
    AgreeOnReads s { s with cfg := other } i := by
  cases i with
  | setkey key => trivial
  | setcfg c => trivial
  | derive nonce => exact ⟨rfl, rfl⟩
  | encode streamId seq closing payload => exact ⟨rfl, rfl, rfl⟩
  | decode record => exact absurd rfl (notDecode record)

/-- Settles O53: a command other than DECODE does not read CFG, and its effect writes CFG alike or not at all. -/
theorem cfgSteersDecodeOnly : Obligations.CfgSteersDecodeOnly := by
  unfold Obligations.CfgSteersDecodeOnly
  intro i s t other notDecode answer
  obtain ⟨e, here, there⟩ := exec_congr (agreeOnReads_withCfg notDecode s other)
  obtain rfl := Host.Outcome.next.inj (here.symm.trans answer)
  refine ⟨_, there, ?_⟩
  cases e with
  | loadKey key => simp only [Effect.apply, State.loadKey, State.respond]
  | _ => rfl

/-! ### What a command writes: proofs -/

/-- Settles O21: the write set of each of the effects a command can have. -/
theorem frameOfEveryCommand : Obligations.FrameOfEveryCommand := by
  unfold Obligations.FrameOfEveryCommand
  intro i s t answer
  obtain ⟨r, rfl⟩ | ⟨key, rfl, -, rfl⟩ | ⟨c, rfl, -, rfl⟩ | ⟨f, rfl, -, -, -, rfl⟩ := exec_cases answer
  · exact ⟨rfl, rfl, rfl, rfl, rfl, fun _ => ⟨rfl, rfl, rfl⟩, fun _ => rfl, fun _ => ⟨rfl, rfl, rfl, rfl⟩⟩
  · simp
  · simp
  · simp [Function.comp_def]

/-- R57: DERIVE and DECODE respond and write no register. -/
theorem exec_derive_or_decode {i : Instr} (reads : (∃ n, i = .derive n) ∨ ∃ r, i = .decode r) {s t : State}
    (answer : exec i s = .next t) : t.phase = .respond ∧ t.regs = s.regs := by
  obtain ⟨r, rfl⟩ | ⟨key, rfl, -, -⟩ | ⟨c, rfl, -, -⟩ | ⟨f, rfl, -, -, -, -⟩ := exec_cases answer
  · exact ⟨rfl, respond_regs s r⟩
  all_goals simp at reads

/-- R34: the response of an effect that gives one does not depend on the state. -/
theorem Effect.resp_apply {e : Effect} {s : State} (responds : (e.apply s).phase = .respond) (s' : State) :
    (e.apply s).resp = (e.apply s').resp ∧ (e.apply s).resp ≠ none := by
  cases e with
  | requestEntropy f => cases responds
  | _ => exact ⟨rfl, nofun⟩

/-- Settles O54: both states get the same effect, and it is a response. -/
theorem deriveAndDecodeAreIdempotent : Obligations.DeriveAndDecodeAreIdempotent := by
  unfold Obligations.DeriveAndDecodeAreIdempotent
  intro i s s' reads same
  have agree : AgreeOnReads s s' i := by
    obtain ⟨n, rfl⟩ | ⟨r, rfl⟩ := reads
    · exact ⟨congrArg Regs.keyValid same, congrArg Regs.key same⟩
    · exact same
  obtain ⟨e, here, there⟩ := exec_congr agree
  obtain ⟨responds, regs⟩ := exec_derive_or_decode reads here
  obtain ⟨sameResp, someResp⟩ := Effect.resp_apply responds s'
  exact ⟨_, _, here, there, sameResp, someResp, regs, (exec_derive_or_decode reads there).2⟩

end Sys2Proof.Machine

/-! ### What a step does: proofs -/

namespace Sys2Proof.Machine

/-- R96, R97: OK with any body is a legal response. -/
theorem legalResponse_ok (body : Bytes) : legalResponse (okCode :: body) = true := by
  simp [legalResponse, okCode]

/-- R96, R97: an error's code alone is a legal response. -/
theorem legalResponse_error (e : Err) : legalResponse [e.code] = true := by
  cases e <;> decide

/-- R96: the response a command gives is legal. -/
theorem legalResponse_of_exec {i : Instr} {s : State} {r : Bytes} (answer : exec i s = .next (s.respond r)) :
    legalResponse r = true := by
  obtain ⟨e, -, error⟩ | ⟨-, ⟨-, -, waits⟩ | ⟨-, body, ok⟩⟩ := exec_commandError_cases answer
  · obtain rfl : r = [e.code] := Option.some.inj (congrArg State.resp error)
    exact legalResponse_error e
  · cases waits
  · obtain rfl : r = okCode :: body := Option.some.inj ok
    exact legalResponse_ok body

/-- What one step can be (R20, R32): each move with its cause, on the state that has the turns `ts` left. The two
commands that write registers and the ENCODE that asks ENTROPY stand beside the plain response. -/
inductive Move (s : State) (ts : List Turn) : State → Prop
  /-- Nothing moves: a hold, IDLE without an offer, nothing to take, an answer nobody waits for. -/
  | hold : Move s ts (s.withTurns ts)
  | accept (msg : Bytes) (rest : List Bytes) (idle : s.phase = .idle) (offered : s.offers = msg :: rest) :
      Move s ts (((s.withTurns ts).withOffers rest).accept msg)
  | respond (r : Bytes) (inExec : s.phase = .exec) (legal : legalResponse r = true) (held : s.cur ≠ none) :
      Move s ts ((s.withTurns ts).respond r)
  | loadKey (c : Cur) (key : Bytes) (inExec : s.phase = .exec) (held : s.cur = some c)
      (decoded : decode c.msg = .instr (.setkey key)) (fits : key.length ≤ Config.keyMaxBytes) :
      Move s ts (((s.withTurns ts).loadKey key).respond [okCode])
  | loadCfg (c : Cur) (b : Byte) (inExec : s.phase = .exec) (held : s.cur = some c)
      (decoded : decode c.msg = .instr (.setcfg b)) (zero : cfgReserved b = 0#6) :
      Move s ts (((s.withTurns ts).loadCfg b).respond [okCode, b])
  | request (c : Cur) (f : Frame) (inExec : s.phase = .exec) (held : s.cur = some c)
      (decoded : decode c.msg = .instr (.encode f.streamId f.seq f.closing f.payload)) (keyed : s.keyValid = true)
      (fits : f.payload.length ≤ Config.maxPayloadBytes) (unanswered : s.entAnswer = none) :
      Move s ts ((s.withTurns ts).requestEntropy f)
  | send (msg : Bytes) (turn : s.turns = .hostSend msg :: ts) : Move s ts ((s.withTurns ts).hostSend msg)
  | take (r : Bytes) (turn : s.turns = .hostTake :: ts) (inRespond : s.phase = .respond) (held : s.resp = some r) :
      Move s ts ((s.withTurns ts).release r)
  | lift (a : EntropyAnswer) (turn : s.turns = .entropyAnswer s.entRequests a :: ts) (waits : s.phase = .waitEnt) :
      Move s ts ((s.withTurns ts).liftHold a)
  | reset (turn : s.turns = .reset :: ts) : Move s ts (s.withTurns ts).assertReset

/-- R200: the execution of a command is one of the four moves out of EXEC. -/
theorem move_of_exec {s t : State} {ts : List Turn} {c : Cur} {i : Instr} (inExec : s.phase = .exec)
    (held : s.cur = some c) (decoded : decode c.msg = .instr i) (answer : exec i (s.withTurns ts) = .next t) :
    Move s ts t := by
  obtain ⟨r, rfl⟩ | ⟨key, rfl, fits, rfl⟩ | ⟨b, rfl, zero, rfl⟩ | ⟨f, rfl, keyed, fits, unanswered, rfl⟩ :=
    exec_cases answer
  · exact .respond r inExec (legalResponse_of_exec answer) (held ▸ Option.some_ne_none c)
  · exact .loadKey c key inExec held decoded fits
  · exact .loadCfg c b inExec held decoded zero
  · exact .request c f inExec held decoded keyed fits unanswered

/-- R200: the CFC's own step is a move. -/
theorem move_of_cfcStep {s t : State} {ts : List Turn} (answer : cfcStep (s.withTurns ts) = .next t) : Move s ts t := by
  obtain ⟨-, -, rfl⟩ | ⟨idle, msg, rest, offered, rfl⟩ | ⟨inExec, c, e, held, -, rfl⟩ |
    ⟨inExec, c, i, held, decoded, answer⟩ | ⟨-, rfl⟩ := cfcStep_cases answer
  · exact .hold
  · exact .accept msg rest idle offered
  · exact .respond _ inExec (legalResponse_error e) (held ▸ Option.some_ne_none c)
  · exact move_of_exec inExec held decoded answer
  · exact .hold

/-- R20: every step is a move, of the agent whose turn it is. -/
theorem move_of_step {s t : State} (stepped : step s = .next t) : Move s s.turns.tail t := by
  obtain ⟨-, answer⟩ | ⟨msg, ts, turn, rfl⟩ | ⟨ts, turn, rfl⟩ | ⟨req, a, ts, turn, rfl⟩ | ⟨ts, turn, rfl⟩ :=
    step_cases stepped
  · exact move_of_cfcStep answer
  all_goals rw [turn, List.tail_cons]
  · exact .send msg turn
  · obtain ⟨r, inRespond, held, taken⟩ | ⟨-, nothing⟩ := hostTake_cases (s.withTurns ts)
    · rw [taken]
      exact .take r turn inRespond held
    · rw [nothing]
      exact .hold
  · obtain ⟨waits, rfl, lifted⟩ | ⟨-, nothing⟩ := entropyAnswer_cases req a (s.withTurns ts)
    · rw [lifted]
      exact .lift a turn waits
    · rw [nothing]
      exact .hold
  · exact .reset turn

/-! ### The invariant: proofs -/

/-- Settles O39: no command is in flight and no key is loaded at reset. -/
theorem resetMeetsTheInvariant : Obligations.ResetMeetsTheInvariant := by
  unfold Obligations.ResetMeetsTheInvariant
  exact {
    cfg_reserved_zero := rfl
    key_padded := fun i _ => reset_keyBytes_getElem i.val i.isLt
    no_key_while_invalid := fun _ => rfl
    pending_iff_waiting := by decide
    cur_empty_iff_idle := by decide
    resp_empty_iff_not_respond := by decide
    answer_only_in_exec := fun answered => absurd rfl answered
    exec_frame_iff_answered := nofun
    waiting_has_frame := nofun
    frame_from_message := nofun }

/-- The invariant says nothing of the turns (log 1). -/
theorem State.Inv.withTurns {s : State} (inv : s.Inv) (ts : List Turn) : (s.withTurns ts).Inv :=
  { inv with }

/-- The invariant says nothing of the messages waiting (log 2). -/
theorem State.Inv.withOffers {s : State} (inv : s.Inv) (msgs : List Bytes) : (s.withOffers msgs).Inv :=
  { inv with }

/-- R271: RESET brings the invariant about, whatever held before. -/
theorem inv_assertReset (s : State) : s.assertReset.Inv :=
  { resetMeetsTheInvariant with }

/-- R289: the invariant says nothing of a message HOST adds. -/
theorem State.Inv.hostSend {s : State} (inv : s.Inv) (msg : Bytes) : (s.hostSend msg).Inv :=
  inv.withOffers _

/-- R32, log 4: outside EXEC no answer is left of an earlier request. -/
theorem State.Inv.unanswered {s : State} (inv : s.Inv) (notExec : s.phase ≠ .exec) : s.entAnswer = none :=
  not_not.1 (mt inv.answer_only_in_exec notExec)

/-- R33: the message accepted in IDLE has no frame yet, and no response or answer is at a port. -/
theorem State.Inv.accept {s : State} (inv : s.Inv) (idle : s.phase = .idle) (msg : Bytes) : (s.accept msg).Inv :=
  have unanswered : s.entAnswer = none := inv.unanswered (idle ▸ nofun)
  { inv with
    pending_iff_waiting := by simp [inv.pending_iff_waiting, idle]
    cur_empty_iff_idle := by simp
    resp_empty_iff_not_respond := by simp [inv.resp_empty_iff_not_respond, idle]
    answer_only_in_exec := fun _ => rfl
    exec_frame_iff_answered := by simp [unanswered]
    waiting_has_frame := by simp
    frame_from_message := by rintro _ _ ⟨⟩ ⟨⟩ }

/-- R32, R200: a response ends EXEC and spends an answer given; CUR stays. -/
theorem State.Inv.respond {s : State} (inv : s.Inv) (inExec : s.phase = .exec) (held : s.cur ≠ none) (r : Bytes) :
    (s.respond r).Inv :=
  { inv with
    pending_iff_waiting := by simp [inv.pending_iff_waiting, inExec]
    cur_empty_iff_idle := by simp [held]
    resp_empty_iff_not_respond := by simp
    answer_only_in_exec := by simp
    exec_frame_iff_answered := by simp
    waiting_has_frame := by simp }

/-- R202: the loaded key is zero-padded, and KEY_VALID is 1. -/
theorem State.Inv.loadKey {s : State} (inv : s.Inv) {key : Bytes} (fits : key.length ≤ Config.keyMaxBytes) :
    (s.loadKey key).Inv :=
  have pastTheKey (i : Fin Config.keyMaxBytes) (past : key.length ≤ i.val) : (loadKeyBytes key)[i] = 0x00#8 := by
    rw [loadKeyBytes_getElem, byteAt, List.getD_eq_default _ _ past]
  { cfg_reserved_zero := by rw [loadKey_cfg]; exact inv.cfg_reserved_zero
    key_padded := fun i past => by
      rw [loadKey_keyLen_val s fits] at past
      exact pastTheKey i past
    no_key_while_invalid := nofun
    pending_iff_waiting := by rw [loadKey_entPending, loadKey_phase]; exact inv.pending_iff_waiting
    cur_empty_iff_idle := by rw [loadKey_cur, loadKey_phase]; exact inv.cur_empty_iff_idle
    resp_empty_iff_not_respond := by rw [loadKey_resp, loadKey_phase]; exact inv.resp_empty_iff_not_respond
    answer_only_in_exec := by rw [loadKey_entAnswer, loadKey_phase]; exact inv.answer_only_in_exec
    exec_frame_iff_answered := by
      rw [loadKey_phase, loadKey_cur, loadKey_entAnswer]
      exact inv.exec_frame_iff_answered
    waiting_has_frame := by rw [loadKey_phase, loadKey_cur]; exact inv.waiting_has_frame
    frame_from_message := fun c f held framed => by
      rw [loadKey_cur] at held
      obtain ⟨decoded, -, fits⟩ := inv.frame_from_message c f held framed
      exact ⟨decoded, rfl, fits⟩ }

/-- R93, R203: a byte without reserved bits may stand in CFG. -/
theorem State.Inv.loadCfg {s : State} (inv : s.Inv) {c : Byte} (zero : cfgReserved c = 0#6) : (s.loadCfg c).Inv :=
  { inv with cfg_reserved_zero := zero }

/-- R40, R146: the request sets ENT_PENDING, and CUR's frame is the one in its message, whose checks have passed. -/
theorem State.Inv.requestEntropy {s : State} (inv : s.Inv) (inExec : s.phase = .exec) {c : Cur} {f : Frame}
    (held : s.cur = some c) (decoded : decode c.msg = .instr (.encode f.streamId f.seq f.closing f.payload))
    (keyed : s.keyValid = true) (fits : f.payload.length ≤ Config.maxPayloadBytes) (unanswered : s.entAnswer = none) :
    (s.requestEntropy f).Inv :=
  { inv with
    pending_iff_waiting := by simp
    cur_empty_iff_idle := by simp [held]
    resp_empty_iff_not_respond := by simp [inv.resp_empty_iff_not_respond, inExec]
    answer_only_in_exec := by simp [unanswered]
    exec_frame_iff_answered := by simp
    waiting_has_frame := by simp [held]
    frame_from_message := by
      simp only [requestEntropy_cur, held, Option.map_some, Option.some.injEq]
      rintro _ _ rfl ⟨⟩
      exact ⟨decoded, keyed, fits⟩ }

/-- R34, R40: taking the response empties CUR and the port. -/
theorem State.Inv.release {s : State} (inv : s.Inv) (inRespond : s.phase = .respond) (r : Bytes) : (s.release r).Inv :=
  have unanswered : s.entAnswer = none := inv.unanswered (inRespond ▸ nofun)
  { inv with
    pending_iff_waiting := by simp [inv.pending_iff_waiting, inRespond]
    cur_empty_iff_idle := by simp
    resp_empty_iff_not_respond := by simp
    answer_only_in_exec := by simp [unanswered]
    exec_frame_iff_answered := by simp
    waiting_has_frame := by simp
    frame_from_message := by simp }

/-- R32, R40: the answer clears ENT_PENDING; the frame of the waiting ENCODE is there with it. -/
theorem State.Inv.liftHold {s : State} (inv : s.Inv) (waits : s.phase = .waitEnt) (a : EntropyAnswer) :
    (s.liftHold a).Inv :=
  { inv with
    pending_iff_waiting := by simp
    cur_empty_iff_idle := by simp [inv.cur_empty_iff_idle, waits]
    resp_empty_iff_not_respond := by simp [inv.resp_empty_iff_not_respond, waits]
    answer_only_in_exec := fun _ => rfl
    exec_frame_iff_answered := fun c _ held => by simp [inv.waiting_has_frame c waits held]
    waiting_has_frame := by simp }

/-- R22, R23, R27, R32, R40: every move keeps the invariant. -/
theorem State.Inv.move {s t : State} {ts : List Turn} (inv : s.Inv) (move : Move s ts t) : t.Inv := by
  have inv' := inv.withTurns ts
  cases move with
  | hold => exact inv'
  | accept msg rest idle => exact (inv'.withOffers rest).accept idle msg
  | respond r inExec _ held => exact inv'.respond inExec held r
  | loadKey c key inExec held _ fits =>
    exact (inv'.loadKey fits).respond (by rwa [loadKey_phase]) (by simp [held]) _
  | loadCfg c b inExec held _ zero => exact (inv'.loadCfg zero).respond inExec (by simp [held]) _
  | request c f inExec held decoded keyed fits unanswered =>
    exact inv'.requestEntropy inExec held decoded keyed fits unanswered
  | send msg => exact inv'.hostSend msg
  | take r _ inRespond => exact inv'.release inRespond r
  | lift a _ waits => exact inv'.liftHold waits a
  | reset => exact inv_assertReset _

/-- Every step keeps the invariant. -/
theorem State.Inv.step {s t : State} (inv : s.Inv) (stepped : Machine.step s = .next t) : t.Inv :=
  inv.move (move_of_step stepped)

/-- Settles O40: each move keeps the invariant, and a step is a move. -/
theorem stepKeepsTheInvariant : Obligations.StepKeepsTheInvariant := by
  unfold Obligations.StepKeepsTheInvariant
  exact fun _ _ inv stepped => inv.step stepped

end Sys2Proof.Machine

/-! ### Rules of every step: proofs -/

namespace Sys2Proof.Machine

/-- Settles O41: the response of a command is legal, and only the response held is taken. -/
theorem stepKeepsResponsesLegal : Obligations.StepKeepsResponsesLegal := by
  unfold Obligations.StepKeepsResponsesLegal
  intro s t ⟨heldLegal, takenLegal⟩ stepped
  cases move_of_step stepped with
  | respond r _ legal => exact ⟨fun _ held => Option.some.inj held ▸ legal, takenLegal⟩
  | loadKey c key =>
    refine ⟨fun _ held => Option.some.inj held ▸ legalResponse_ok [], ?_⟩
    rw [respond_taken, loadKey_taken]
    exact takenLegal
  | loadCfg c b => exact ⟨fun _ held => Option.some.inj held ▸ legalResponse_ok [b], takenLegal⟩
  | take r _ _ held =>
    refine ⟨nofun, fun response taken => ?_⟩
    obtain before | rfl := List.mem_append.1 taken |>.imp_right List.mem_singleton.1
    · exact takenLegal response before
    · exact heldLegal response held
  | reset => exact ⟨nofun, takenLegal⟩
  | _ => exact ⟨heldLegal, takenLegal⟩

/-- R200, R101: EXEC with a message in CUR answers a next state. -/
theorem execStep_answers {s : State} (held : s.cur ≠ none) : ∃ t, execStep s = .next t := by
  obtain ⟨c, held⟩ := Option.ne_none_iff_exists'.1 held
  cases decoded : decode c.msg with
  | error e => exact ⟨_, execStep_of_decode_error held decoded⟩
  | instr i =>
    rw [execStep_of_decode_instr held decoded]
    exact exec_answers i s

/-- R280, R281: the CFC's own step answers a next state in every phase, but for EXEC with CUR empty (log 10). -/
theorem cfcStep_answers {s : State} (held : s.phase = .exec → s.cur ≠ none) : ∃ t, cfcStep s = .next t := by
  unfold cfcStep
  cases inPhase : s.phase with
  | exec => exact execStep_answers (held inPhase)
  | idle => exact ⟨_, rfl⟩
  | waitEnt => exact ⟨_, rfl⟩
  | respond => exact ⟨_, rfl⟩

/-- R20: so does every step; the other agents' moves always answer. -/
theorem step_answers {s : State} (held : s.phase = .exec → s.cur ≠ none) : ∃ t, step s = .next t := by
  unfold step
  split
  · exact cfcStep_answers held
  · exact cfcStep_answers (s := s.withTurns _) held
  all_goals exact ⟨_, rfl⟩

/-- R32, R40: in EXEC there is a command. -/
theorem State.Inv.cur_of_exec {s : State} (inv : s.Inv) (inExec : s.phase = .exec) : s.cur ≠ none := fun empty =>
  absurd (inExec.symm.trans (inv.cur_empty_iff_idle.1 empty)) (by decide)

/-- Settles O42: the one state that stops is EXEC with CUR empty, and the invariant rules it out. -/
theorem noStepStops : Obligations.NoStepStops := by
  unfold Obligations.NoStepStops
  exact fun _ inv => step_answers inv.cur_of_exec

/-- Settles O43: the phases of each move, with its cause. -/
theorem phaseMovesAsTheSequencerSays : Obligations.PhaseMovesAsTheSequencerSays := by
  unfold Obligations.PhaseMovesAsTheSequencerSays
  intro s t stepped moved
  cases move_of_step stepped with
  | hold => exact absurd rfl moved
  | accept msg rest idle offered =>
    exact .inr (.inl ⟨idle, rfl, msg, congrArg List.head? offered, rfl⟩)
  | respond r inExec => exact .inr (.inr (.inr (.inr (.inl ⟨inExec, rfl, nofun⟩))))
  | loadKey c key inExec => exact .inr (.inr (.inr (.inr (.inl ⟨inExec, rfl, nofun⟩))))
  | loadCfg c b inExec => exact .inr (.inr (.inr (.inr (.inl ⟨inExec, rfl, nofun⟩))))
  | request c f inExec => exact .inr (.inr (.inl ⟨inExec, rfl, rfl, rfl⟩))
  | send msg => exact absurd rfl moved
  | take r _ inRespond held => exact .inr (.inr (.inr (.inr (.inr ⟨inRespond, rfl, r, held, rfl⟩))))
  | lift a turn waits => exact .inr (.inr (.inr (.inl ⟨waits, rfl, a, _, turn, rfl⟩)))
  | reset turn => exact .inl ⟨_, turn, rfl⟩

/-- Settles O44: the only moves that write the key register are SETKEY's and RESET's. -/
theorem onlySetkeyAndResetWriteTheKey : Obligations.OnlySetkeyAndResetWriteTheKey := by
  unfold Obligations.OnlySetkeyAndResetWriteTheKey
  intro s t stepped written
  cases move_of_step stepped with
  | loadKey c key inExec held decoded fits =>
    refine .inr ⟨inExec, c, key, held, decoded, fits, ?_, ?_, rfl⟩
    · rw [respond_key, loadKey_key _ key fits]
    · rw [respond_keyValid, loadKey_keyValid]
  | reset turn => exact .inl ⟨_, turn⟩
  | _ => exact absurd ⟨rfl, rfl, rfl⟩ written

/-- Settles O45: the only moves that write CFG are SETCFG's and RESET's. -/
theorem onlySetcfgAndResetWriteCfg : Obligations.OnlySetcfgAndResetWriteCfg := by
  unfold Obligations.OnlySetcfgAndResetWriteCfg
  intro s t stepped written
  cases move_of_step stepped with
  | loadCfg c b inExec held decoded zero => exact .inr ⟨inExec, c, b, held, decoded, zero, rfl, rfl⟩
  | reset turn => exact .inl ⟨_, turn⟩
  | loadKey c key => exact absurd (by rw [respond_cfg, loadKey_cfg, withTurns_cfg]) written
  | _ => exact absurd rfl written

/-- Settles O48: only HOST's taking moves a response to those taken, and it is the one held. -/
theorem takenResponsesNeverChange : Obligations.TakenResponsesNeverChange := by
  unfold Obligations.TakenResponsesNeverChange
  intro s t stepped
  cases move_of_step stepped with
  | take r turn _ held => exact .inr ⟨r, _, turn, held, rfl⟩
  | loadKey c key => exact .inl (by rw [respond_taken, loadKey_taken, withTurns_taken])
  | _ => exact .inl rfl

/-! ### The ports: proofs -/

/-- On the CFC's turn the step is the CFC's own, on the state without the turn. -/
theorem TurnUsed.step_eq_cfcStep {s s' : State} (turn : TurnUsed s s') : step s = cfcStep s' := by
  obtain ⟨moves, rfl⟩ := turn.cfcMoves
  exact step_of_cfcMoves moves

/-- R33: on the CFC's turn in IDLE the oldest message is accepted. -/
theorem TurnUsed.step_accepts {s s' : State} (turn : TurnUsed s s') {msg : Bytes} {rest : List Bytes}
    (idle : s.phase = .idle) (offered : s.offers = msg :: rest) :
    step s = .next ((s'.withOffers rest).accept msg) := by
  rw [turn.step_eq_cfcStep]
  obtain ⟨-, rfl⟩ := turn.cfcMoves
  simp only [cfcStep, withTurns_phase, idle, State.acceptNext, withTurns_offers, offered]

/-- R33, R40: outside IDLE a move of no agent accepts a message or takes one from those waiting, and the message in
CUR stays while the command is in flight. -/
theorem Move.keeps_offers {s t : State} {ts : List Turn} (move : Move s ts t) (busy : s.phase ≠ .idle) :
    (∃ more, t.offers = s.offers ++ more) ∧ t.accepted = s.accepted ∧
      (t.phase ≠ .idle → t.cur.map (·.msg) = s.cur.map (·.msg)) := by
  have none_sent (t : State) (same : t.offers = s.offers) : ∃ more, t.offers = s.offers ++ more :=
    ⟨[], by rw [same, List.append_nil]⟩
  cases move with
  | accept msg rest idle => exact absurd idle busy
  | loadKey c key =>
    exact ⟨none_sent _ (by rw [respond_offers, loadKey_offers, withTurns_offers]),
      by rw [respond_accepted, loadKey_accepted, withTurns_accepted],
      fun _ => by rw [respond_cur, loadKey_cur, withTurns_cur]⟩
  | request c f => exact ⟨none_sent _ rfl, rfl, fun _ => by simp [Function.comp_def]⟩
  | send msg => exact ⟨⟨[msg], rfl⟩, rfl, fun _ => rfl⟩
  | take r => exact ⟨none_sent _ rfl, rfl, fun inFlight => absurd rfl inFlight⟩
  | reset => exact ⟨none_sent _ rfl, rfl, fun inFlight => absurd rfl inFlight⟩
  | _ => exact ⟨none_sent _ rfl, rfl, fun _ => rfl⟩

/-- Settles O36: the step in IDLE for both forms of the CFC's turn, and every move in the other phases. -/
theorem portAcceptsOnlyWhenIdle : Obligations.PortAcceptsOnlyWhenIdle := by
  unfold Obligations.PortAcceptsOnlyWhenIdle
  refine ⟨?noTurns, ?cfcTurn, fun s t busy stepped => (move_of_step stepped).keeps_offers busy⟩
  case noTurns =>
    intro s msg rest idle offered turns
    exact TurnUsed.step_accepts (.inl ⟨turns, rfl⟩) idle offered
  case cfcTurn =>
    intro s msg rest ts idle offered turns
    exact TurnUsed.step_accepts (.inr ⟨ts, turns, rfl⟩) idle offered

/-- R34: on HOST's turn to take, the response held is released. -/
theorem step_takes {s : State} {r : Bytes} {ts : List Turn} (inRespond : s.phase = .respond) (held : s.resp = some r)
    (turn : s.turns = .hostTake :: ts) : step s = .next ((s.withTurns ts).release r) := by
  simp only [step, turn, State.hostTake, withTurns_phase, withTurns_resp, inRespond, held]

/-- Settles O37: the state with the response released, field by field. -/
theorem takingTheResponseReturnsToIdle : Obligations.TakingTheResponseReturnsToIdle := by
  unfold Obligations.TakingTheResponseReturnsToIdle
  exact fun _ _ _ => step_takes

/-- R35: ENTROPY's turn gives its answer. -/
theorem step_of_entropyAnswer {s : State} {req : Nat} {a : EntropyAnswer} {ts : List Turn}
    (turn : s.turns = .entropyAnswer req a :: ts) : step s = .next ((s.withTurns ts).entropyAnswer req a) := by
  simp only [step, turn]

/-- R32: the answer to the outstanding request lifts the hold. -/
theorem step_lifts {s : State} {a : EntropyAnswer} {ts : List Turn} (waits : s.phase = .waitEnt)
    (turn : s.turns = .entropyAnswer s.entRequests a :: ts) : step s = .next ((s.withTurns ts).liftHold a) := by
  rw [step_of_entropyAnswer turn, State.entropyAnswer, if_pos ⟨waits, rfl⟩]

/-- Settles O38: the two sides of the test an answer goes through. -/
theorem onlyTheOutstandingAnswerLiftsTheHold : Obligations.OnlyTheOutstandingAnswerLiftsTheHold := by
  unfold Obligations.OnlyTheOutstandingAnswerLiftsTheHold
  intro s req a ts turn
  constructor
  · rintro waits rfl
    exact step_lifts waits turn
  · intro other
    have ignored : ¬((s.withTurns ts).phase = .waitEnt ∧ req = (s.withTurns ts).entRequests) :=
      not_and_or.2 other
    rw [step_of_entropyAnswer turn, State.entropyAnswer, if_neg ignored]
    rfl

/-- Settles O35: RESET's step clears the answer and leaves what is the agents'. -/
theorem resetTurnLeavesTheAgentsTheirs : Obligations.ResetTurnLeavesTheAgentsTheirs := by
  unfold Obligations.ResetTurnLeavesTheAgentsTheirs
  intro s ts turn
  exact ⟨_, step_of_reset turn, rfl, rfl, rfl, rfl, rfl, rfl⟩

/-! ### Entropy requests: proofs -/

/-- R242: the table reads the registers and ENTROPY's answer, so it rejects what a command rejects in the state that
answer puts there. -/
theorem firstError_eq_commandError_liftHold (s : State) (a : EntropyAnswer) {cmd : Bytes} {i : Instr}
    (decoded : decode cmd = .instr i) : firstError s.regs a cmd = (s.liftHold a).commandError i := by
  have answer : (s.liftHold a).entAnswer = some .fail ↔ a = .fail := by simp
  rw [← firstError_of_decode_instr answer decoded, liftHold_regs]

/-- R144: the three checks of ENCODE. -/
theorem commandError_encode_eq_none_iff {s : State} {streamId seq : U32} {closing : Byte} {payload : Bytes} :
    s.commandError (.encode streamId seq closing payload) = none ↔
      s.keyValid = true ∧ payload.length ≤ Config.maxPayloadBytes ∧ s.entAnswer ≠ some .fail := by
  by_cases long : Config.maxPayloadBytes < payload.length
  · cases keyed : s.keyValid <;> simp [State.commandError, keyed, long]
  · have fits := Nat.le_of_not_lt long
    cases keyed : s.keyValid <;> simp [State.commandError, keyed, long, fits]

/-- R36, R145: the commands that ask for a nonce are the ENCODEs whose checks pass. -/
theorem asksEntropy_iff (s : State) (cmd : Bytes) :
    asksEntropy s.regs cmd = true ↔
      ∃ f : Frame, decode cmd = .instr (.encode f.streamId f.seq f.closing f.payload) ∧ s.keyValid = true ∧
        f.payload.length ≤ Config.maxPayloadBytes := by
  rw [asksEntropy, decide_eq_true_iff]
  constructor
  · rintro ⟨op, passed⟩
    cases decoded : decode cmd with
    | error e => exact absurd ((firstError_of_decode_error _ _ decoded).symm.trans passed) (Option.some_ne_none e)
    | instr i =>
      obtain ⟨-, -, command⟩ := decode_instr_cases decoded
      obtain ⟨-, rfl⟩ : 10 ≤ cmd.length ∧
          i = .encode (streamIdOperand cmd) (seqOperand cmd) (closingOperand cmd) (payloadOperand cmd) := by
        simpa [op] using command
      rw [firstError_eq_commandError_liftHold _ _ decoded] at passed
      obtain ⟨keyed, fits, -⟩ := commandError_encode_eq_none_iff.1 passed
      exact ⟨⟨_, _, _, _⟩, rfl, keyed, fits⟩
  · rintro ⟨f, decoded, keyed, fits⟩
    refine ⟨opcodeOf_of_decode decoded, ?_⟩
    rw [firstError_eq_commandError_liftHold _ _ decoded]
    exact commandError_encode_eq_none_iff.2 ⟨keyed, fits, nofun⟩

/-- R36: the only move that counts a request is the one that makes it. -/
theorem Move.request_of_entRequests {s t : State} {ts : List Turn} (move : Move s ts t)
    (counted : t.entRequests ≠ s.entRequests) :
    t.entRequests = s.entRequests + 1 ∧ s.phase = .exec ∧ t.phase = .waitEnt ∧ s.entAnswer = none ∧
      ∃ c, s.cur = some c ∧ asksEntropy s.regs c.msg = true := by
  cases move with
  | request c f inExec held decoded keyed fits unanswered =>
    exact ⟨rfl, inExec, rfl, unanswered, c, held, (asksEntropy_iff s c.msg).2 ⟨f, decoded, keyed, fits⟩⟩
  | loadKey c key => exact absurd (by rw [respond_entRequests, loadKey_entRequests, withTurns_entRequests]) counted
  | _ => exact absurd rfl counted

/-- R145, R146: the command that asks for a nonce makes its request while no answer is there. -/
theorem execStep_requests {s : State} {c : Cur} (held : s.cur = some c) (asks : asksEntropy s.regs c.msg = true)
    (unanswered : s.entAnswer = none) : ∃ f, execStep s = .next (s.requestEntropy f) := by
  obtain ⟨f, decoded, keyed, fits⟩ := (asksEntropy_iff s c.msg).1 asks
  exact ⟨f, by rw [execStep_of_decode_instr held decoded, exec_encode_requests keyed fits unanswered]⟩

/-- R144, R147: the command that asked for a nonce responds once an answer is there. -/
theorem execStep_responds_of_answer {s : State} {c : Cur} {a : EntropyAnswer} (held : s.cur = some c)
    (asks : asksEntropy s.regs c.msg = true) (answered : s.entAnswer = some a) :
    ∃ r, execStep s = .next (s.respond r) := by
  obtain ⟨f, decoded, keyed, fits⟩ := (asksEntropy_iff s c.msg).1 asks
  rw [execStep_of_decode_instr held decoded, exec_encode_of_checks keyed fits]
  cases a with
  | bytes n => exact ⟨_, by rw [encodeWithEntropy_of_bytes f answered, respondOk_eq]⟩
  | fail => exact ⟨_, by rw [encodeWithEntropy_of_fail f answered, raise_eq]⟩

/-- Settles O46: the request's move, and the two executions of an ENCODE, which the frame in CUR tells apart. -/
theorem entropyRequestsComeFromPassingEncodes : Obligations.EntropyRequestsComeFromPassingEncodes := by
  unfold Obligations.EntropyRequestsComeFromPassingEncodes
  refine ⟨fun s t stepped => (move_of_step stepped).request_of_entRequests, ?_⟩
  intro s c inv inExec held asks moves
  have moves : CfcMoves s := moves
  have frameIff := inv.exec_frame_iff_answered c inExec held
  have step_eq : step s = execStep (s.withTurns s.turns.tail) := by
    rw [step_of_cfcMoves moves, cfcStep, withTurns_phase, inExec]
  rw [step_eq]
  have held : (s.withTurns s.turns.tail).cur = some c := held
  have asks : asksEntropy (s.withTurns s.turns.tail).regs c.msg = true := by rwa [withTurns_regs]
  constructor
  · intro noFrame
    obtain ⟨f, requested⟩ := execStep_requests held asks (frameIff.1 noFrame)
    exact ⟨_, requested, rfl, rfl⟩
  · intro framed
    obtain ⟨a, answered⟩ := Option.ne_none_iff_exists'.1 (mt frameIff.2 framed)
    obtain ⟨r, responded⟩ := execStep_responds_of_answer held asks answered
    exact ⟨_, responded, rfl, rfl⟩

/-! ### Responses are counted: proofs -/

/-- R279: one command is in flight in every phase but IDLE. -/
theorem inFlight_of_busy {s : State} (busy : s.phase ≠ .idle) : s.inFlight = 1 := if_neg busy

/-- R32, R60, R61: accepting puts one message in flight and taking brings one response back; every other move but
RESET's and HOST's sending moves none. -/
theorem Move.counts {s t : State} {ts : List Turn} (move : Move s ts t) (noReset : ∀ ts, s.turns ≠ .reset :: ts) :
    (∃ m, s.turns = .hostSend m :: ts ∧ t = (s.withTurns ts).hostSend m) ∨
    (t.offers.length + t.inFlight + t.taken.length = s.offers.length + s.inFlight + s.taken.length ∧
      t.accepted ++ t.offers = s.accepted ++ s.offers ∧
      s.accepted.length + t.inFlight + t.taken.length = t.accepted.length + s.inFlight + s.taken.length) := by
  cases move with
  | send msg turn => exact .inl ⟨msg, turn, rfl⟩
  | reset turn => exact absurd turn (noReset _)
  | accept msg rest idle offered =>
    right
    simp [State.inFlight, idle, offered]
  | take r _ inRespond =>
    right
    simp [State.inFlight, inRespond]
    omega
  | hold => exact .inr ⟨rfl, rfl, rfl⟩
  | respond r inExec => simp [State.inFlight, inExec]
  | loadKey c key inExec => simp [State.inFlight, inExec]
  | loadCfg c b inExec => simp [State.inFlight, inExec]
  | request c f inExec => simp [State.inFlight, inExec]
  | lift a _ waits => simp [State.inFlight, waits]

/-- R289: on HOST's turn to send, one more message waits. -/
theorem step_sends {s : State} {m : Bytes} {ts : List Turn} (turn : s.turns = .hostSend m :: ts) :
    step s = .next ((s.withTurns ts).hostSend m) := by
  simp only [step, turn]

/-- Settles O47: HOST's sending adds a waiting message, and every other move counts as `Move.counts` says. -/
theorem oneResponsePerCommand : Obligations.OneResponsePerCommand := by
  unfold Obligations.OneResponsePerCommand
  intro s t _ stepped noReset
  have sent (m : Bytes) (ts : List Turn) (turn : s.turns = .hostSend m :: ts) :
      t.offers = s.offers ++ [m] ∧ t.inFlight = s.inFlight ∧ t.taken = s.taken ∧ t.accepted = s.accepted := by
    obtain rfl := Host.Outcome.next.inj (stepped.symm.trans (step_sends turn))
    exact ⟨rfl, rfl, rfl, rfl⟩
  obtain ⟨m, turn, -⟩ | ⟨waiting, order, count⟩ := (move_of_step stepped).counts noReset
  · obtain ⟨-, inFlight, taken, accepted⟩ := sent m _ turn
    exact ⟨fun notSent => absurd turn (notSent m _), by rw [inFlight, taken, accepted], sent⟩
  · exact ⟨fun _ => ⟨waiting, order⟩, count, sent⟩

end Sys2Proof.Machine

/-! ### Runs: proofs -/

namespace Sys2Proof.Machine

/-- A run of one more step is a step and a run from there. -/
theorem run_succ_inv {k : Nat} {s t : State} (ran : Host.Core.run Sys2Proof.core (k + 1) s = .next t) :
    ∃ u, step s = .next u ∧ Host.Core.run Sys2Proof.core k u = .next t := by
  cases stepped : step s with
  | next u => exact ⟨u, rfl, (run_succ k stepped).symm.trans ran⟩
  | fault r =>
    have stops : Sys2Proof.core.step s = .fault r := stepped
    simp [Host.Core.run, stops] at ran
  | refused r =>
    have stops : Sys2Proof.core.step s = .refused r := stepped
    simp [Host.Core.run, stops] at ran

/-- Two runs, one after the other. -/
theorem run_add {j k : Nat} {s u : State} (ran : Host.Core.run Sys2Proof.core j s = .next u) :
    Host.Core.run Sys2Proof.core (j + k) s = Host.Core.run Sys2Proof.core k u := by
  induction j generalizing s with
  | zero =>
    cases ran
    rw [Nat.zero_add]
  | succ j ih =>
    obtain ⟨v, stepped, rest⟩ := run_succ_inv ran
    rw [Nat.succ_add_eq_add_succ, Nat.add_succ, run_succ _ stepped, ih rest]

/-- What every step keeps, every run keeps. -/
theorem run_keeps {P : State → Prop} (keeps : ∀ s t, P s → step s = .next t → P t) {k : Nat} {s t : State}
    (holds : P s) (ran : Host.Core.run Sys2Proof.core k s = .next t) : P t := by
  induction k generalizing s with
  | zero =>
    cases ran
    exact holds
  | succ k ih =>
    obtain ⟨u, stepped, rest⟩ := run_succ_inv ran
    exact ih (keeps s u holds stepped) rest

/-- Every run keeps the invariant. -/
theorem State.Inv.run {k : Nat} {s t : State} (inv : s.Inv) (ran : Host.Core.run Sys2Proof.core k s = .next t) :
    t.Inv :=
  run_keeps (fun _ _ inv stepped => inv.step stepped) inv ran

/-! ### The holds: proofs -/

/-- A hold that no turn to come ends (R280, R281): WAIT_ENT without RESET and without an answer to the outstanding
request, RESPOND without RESET and without a taking HOST. -/
def Held (s : State) : Prop :=
  .reset ∉ s.turns ∧
    ((s.phase = .waitEnt ∧ ∀ a, .entropyAnswer s.entRequests a ∉ s.turns) ∨
      (s.phase = .respond ∧ .hostTake ∉ s.turns))

/-- A hold lasts with fewer turns to come and more messages waiting. -/
theorem Held.mono {s : State} (held : Held s) {ts : List Turn} (fewer : ts ⊆ s.turns) (msgs : List Bytes) :
    Held ((s.withTurns ts).withOffers msgs) := by
  obtain ⟨noReset, ⟨waits, noAnswer⟩ | ⟨responds, noTake⟩⟩ := held
  · exact ⟨fun mem => noReset (fewer mem), .inl ⟨waits, fun a mem => noAnswer a (fewer mem)⟩⟩
  · exact ⟨fun mem => noReset (fewer mem), .inr ⟨responds, fun mem => noTake (fewer mem)⟩⟩

/-- R279, R280, R281: in a hold a step uses up a turn, and HOST may have one more message waiting; that is all. -/
theorem Held.step {s : State} (held : Held s) :
    ∃ ts more, ts ⊆ s.turns ∧ Machine.step s = .next ((s.withTurns ts).withOffers (s.offers ++ more)) := by
  obtain ⟨noReset, hold⟩ := held
  have notIdle : s.phase ≠ .idle := fun idle => by simp [idle] at hold
  have notExec : s.phase ≠ .exec := fun inExec => by simp [inExec] at hold
  obtain ⟨t, stepped⟩ := step_answers fun inExec => absurd inExec notExec
  have fewer : s.turns.tail ⊆ s.turns := List.tail_subset _
  cases move_of_step stepped with
  | hold => exact ⟨_, [], fewer, by rw [stepped, List.append_nil]; rfl⟩
  | send msg => exact ⟨_, [msg], fewer, stepped⟩
  | take r turn inRespond =>
    obtain ⟨waits, -⟩ | ⟨-, noTake⟩ := hold
    · exact absurd (inRespond.symm.trans waits) (by decide)
    · exact absurd (turn ▸ List.mem_cons_self) noTake
  | lift a turn waits =>
    obtain ⟨-, noAnswer⟩ | ⟨responds, -⟩ := hold
    · exact absurd (turn ▸ List.mem_cons_self) (noAnswer a)
    · exact absurd (waits.symm.trans responds) (by decide)
  | reset turn => exact absurd (turn ▸ List.mem_cons_self) noReset
  | accept msg rest idle => exact absurd idle notIdle
  | respond r inExec => exact absurd inExec notExec
  | loadKey c key inExec => exact absurd inExec notExec
  | loadCfg c b inExec => exact absurd inExec notExec
  | request c f inExec => exact absurd inExec notExec

/-- R279, R280, R281: in a hold the same is true of any number of steps. -/
theorem Held.run {s : State} (held : Held s) (k : Nat) :
    ∃ ts more, Host.Core.run Sys2Proof.core k s = .next ((s.withTurns ts).withOffers (s.offers ++ more)) := by
  induction k generalizing s with
  | zero => exact ⟨s.turns, [], by rw [List.append_nil]; rfl⟩
  | succ k ih =>
    obtain ⟨ts, more, fewer, stepped⟩ := held.step
    obtain ⟨ts', more', ran⟩ := ih (held.mono fewer _)
    refine ⟨ts', more ++ more', ?_⟩
    rw [run_succ k stepped, ran, withOffers_offers, List.append_assoc]
    rfl

/-- Settles O49: the hold of WAIT_ENT. -/
theorem entropyHoldLasts : Obligations.EntropyHoldLasts := by
  unfold Obligations.EntropyHoldLasts
  intro k s waits noReset noAnswer
  obtain ⟨ts, more, ran⟩ := Held.run ⟨noReset, .inl ⟨waits, noAnswer⟩⟩ k
  exact ⟨_, ran, waits, rfl, rfl, rfl, rfl, rfl, more, rfl⟩

/-- Settles O50: the hold of RESPOND. -/
theorem responseHoldLasts : Obligations.ResponseHoldLasts := by
  unfold Obligations.ResponseHoldLasts
  intro k s responds noReset noTake
  obtain ⟨ts, more, ran⟩ := Held.run ⟨noReset, .inr ⟨responds, noTake⟩⟩ k
  exact ⟨_, ran, responds, rfl, rfl, rfl, rfl, more, rfl⟩

/-! ### Discarded commands: proofs -/

/-- R288: fewer responses have been taken since `start` than commands accepted, those in flight left out. -/
def LostResponse (start s : State) : Prop :=
  start.accepted.length + s.taken.length + s.inFlight < s.accepted.length + start.taken.length

/-- R272: RESET leaves no command in flight. -/
theorem inFlight_assertReset (s : State) : s.assertReset.inFlight = 0 := rfl

/-- R272, R288: a lost response stays lost, whatever moves. -/
theorem LostResponse.step {start s t : State} (lost : LostResponse start s) (stepped : Machine.step s = .next t) :
    LostResponse start t := by
  unfold LostResponse at *
  by_cases noReset : ∀ ts, s.turns ≠ .reset :: ts
  · obtain ⟨m, -, rfl⟩ | ⟨-, -, count⟩ := (move_of_step stepped).counts noReset
    · exact lost
    · omega
  · push Not at noReset
    obtain ⟨ts, turn⟩ := noReset
    obtain rfl := Host.Outcome.next.inj (stepped.symm.trans (step_of_reset turn))
    rw [inFlight_assertReset, assertReset_taken, assertReset_accepted, withTurns_taken, withTurns_accepted]
    omega

/-- R288: a run that lost a response is not over. -/
theorem LostResponse.not_runOver {start s : State} (lost : LostResponse start s) (cmds : List Bytes) :
    ¬s.RunOver start cmds := by
  rintro ⟨accepted, taken, -, -⟩
  unfold LostResponse at lost
  rw [accepted, taken, List.length_append] at lost
  omega

/-- Settles O57: RESET loses the response of the command in flight. -/
theorem discardedCommandLeavesTheRunOpen : Obligations.DiscardedCommandLeavesTheRunOpen := by
  unfold Obligations.DiscardedCommandLeavesTheRunOpen
  intro k start s t ts cmds counted busy turn ran
  obtain ⟨u, stepped, rest⟩ := run_succ_inv ran
  obtain rfl := Host.Outcome.next.inj (stepped.symm.trans (step_of_reset turn))
  have lost : LostResponse start (s.withTurns ts).assertReset := by
    rw [inFlight_of_busy busy] at counted
    rw [LostResponse, inFlight_assertReset, assertReset_taken, assertReset_accepted, withTurns_taken,
      withTurns_accepted]
    omega
  exact (run_keeps (fun _ _ lost stepped => lost.step stepped) lost rest).not_runOver cmds

end Sys2Proof.Machine

/-! ### The reference reading: proofs -/

namespace Sys2Proof.Machine

/-- R90: the frame of an ENCODE's message. -/
def frameOperand (cmd : Bytes) : Frame :=
  ⟨streamIdOperand cmd, seqOperand cmd, closingOperand cmd, payloadOperand cmd⟩

/-- R72, R143: the encoder core's record of a message's frame is the record written field by field. -/
theorem enc_eq_referenceRecord (key : Bytes) (n : Nonce) (cmd : Bytes) :
    enc key n (frameOperand cmd) = referenceRecord key n cmd := by
  rw [enc_eq, maskApply, xorBytes_headerImage_maskVector]
  simp only [referenceRecord, frameOperand, preambleConst, streamIdOperand, seqOperand, closingOperand, payloadOperand,
    nonceBytes, List.length_drop, List.append_assoc]

/-- R80: the masked header image, field by field. -/
theorem recordHeader_eq_fields {r : Bytes} (long : 17 ≤ r.length) :
    recordHeader r = bytes32 (be32 (slice r 5 9)) ++ bytes32 (be32 (slice r 9 13)) ++ [byteAt r 13] := by
  rw [bytes32_be32_of_length _ (by rw [length_slice]; omega), bytes32_be32_of_length _ (by rw [length_slice]; omega),
    ← slice_singleton (by omega), slice_append_slice _ _ _ _ (by decide) (by decide),
    slice_append_slice _ _ _ _ (by decide) (by decide), recordHeader]

/-- R18: three bytes as a nonce, byte by byte. -/
theorem nonceOf_slice (b : Bytes) (i : Nat) :
    nonceOf (slice b i (i + 3)) = ⟨byteAt b i, byteAt b (i + 1), byteAt b (i + 2)⟩ := by
  rw [nonceOf, byteAt_slice _ _ _ _ (by omega), byteAt_slice _ _ _ _ (by omega), byteAt_slice _ _ _ _ (by omega)]
  rfl

/-- R173, R174: the decoder core's frame image is the one written field by field. -/
theorem frameImage_dec_eq_reference (key : Bytes) {r : Bytes} (long : 17 ≤ r.length) :
    frameImage (dec key r) = referenceFrameImage key r := by
  have nonce : recordNonce r = ⟨byteAt r 14, byteAt r 15, byteAt r 16⟩ := nonceOf_slice r 14
  rw [frameImage, headerImage_dec key long, recordHeader_eq_fields long, maskVector_eq_masks, xorBytes_nineByteImages,
    nonce]
  rfl

/-- R242: a rejected command's reference is the error's code. -/
theorem reference_of_firstError {r : Regs} {a : EntropyAnswer} {cmd : Bytes} {e : Err}
    (first : firstError r a cmd = some e) : reference r a cmd = ([e.code], r) := by
  simp only [reference, first]

section

variable {r : Regs} {a : EntropyAnswer} {cmd : Bytes}

/-- R202: the reference of SETKEY. -/
theorem reference_setkey (passed : firstError r a cmd = none) (op : opcodeOf cmd = 0x01#8) :
    reference r a cmd = ([okCode], ⟨true, cmd.drop 1, r.cfg⟩) := by
  simp [reference, passed, op]

/-- R203: the reference of SETCFG. -/
theorem reference_setcfg (passed : firstError r a cmd = none) (op : opcodeOf cmd = 0x02#8) :
    reference r a cmd = ([okCode, byteAt cmd 1], ⟨r.keyValid, r.key, byteAt cmd 1⟩) := by
  simp [reference, passed, op]

/-- R116: the reference of DERIVE responds with the mask vector. -/
theorem reference_derive (passed : firstError r a cmd = none) (op : opcodeOf cmd = 0x03#8) :
    reference r a cmd = (okCode :: maskVector r.key (nonceOperand cmd), r) := by
  have nonce : nonceOperand cmd = ⟨byteAt cmd 1, byteAt cmd 2, byteAt cmd 3⟩ := nonceOf_slice cmd 1
  simp [reference, passed, op, maskVector_eq_masks, nonce]

/-- R144: the reference of ENCODE responds with the encoder core's record. -/
theorem reference_encode {n : Nonce} (passed : firstError r (.bytes n) cmd = none) (op : opcodeOf cmd = 0x04#8) :
    reference r (.bytes n) cmd = (okCode :: enc r.key n (frameOperand cmd), r) := by
  simp [reference, passed, op, enc_eq_referenceRecord]

/-- R176: the reference of DECODE responds with the decoder core's frame. -/
theorem reference_decode (passed : firstError r a cmd = none) (op : opcodeOf cmd = 0x05#8)
    (long : 17 ≤ (recordOperand cmd).length) :
    reference r a cmd = (okCode :: frameImage (dec r.key (recordOperand cmd)), r) := by
  rw [frameImage_dec_eq_reference r.key long]
  simp [reference, passed, op, recordOperand]

end

/-- R145: the answer the table reads is ENTROPY's, or no check reads it. -/
theorem firstError_eq_commandError {s : State} {a : EntropyAnswer} {cmd : Bytes} {i : Instr}
    (decoded : decode cmd = .instr i) (answered : asksEntropy s.regs cmd = true → s.entAnswer = some a) :
    firstError s.regs a cmd = s.commandError i := by
  rw [firstError_eq_commandError_liftHold s a decoded]
  cases i with
  | encode streamId seq closing payload =>
    by_cases passes : s.keyValid = true ∧ payload.length ≤ Config.maxPayloadBytes
    · have answer := answered ((asksEntropy_iff s cmd).2 ⟨⟨_, _, _, _⟩, decoded, passes⟩)
      simp only [State.commandError, liftHold_keyValid, liftHold_entAnswer, answer]
      rfl
    · have stops : s.keyValid = false ∨ Config.maxPayloadBytes < payload.length := by
        rwa [not_and_or, Bool.not_eq_true, Nat.not_le] at passes
      obtain noKey | long := stops
      · simp [State.commandError, noKey]
      · simp [State.commandError, long]
  | _ => rfl

/-- R176: the two checks of DECODE. -/
theorem commandError_decode_eq_none_iff {s : State} {r : Bytes} :
    s.commandError (.decode r) = none ↔ s.keyValid = true ∧ validate s.chkPre s.chkLen r = none := by
  cases keyed : s.keyValid <;> simp [State.commandError, keyed]

/-- A command has been executed as the reference has it: its response is held, its registers are written, and nothing
of the agents' side has moved. -/
structure Executed (s t : State) (response : Bytes) (regs : Regs) : Prop where
  phase : t.phase = .respond
  resp : t.resp = some response
  regs : t.regs = regs
  entRequests : t.entRequests = s.entRequests
  offers : t.offers = s.offers
  taken : t.taken = s.taken
  accepted : t.accepted = s.accepted
  turns : t.turns = s.turns

/-- R34: a response leaves the registers. -/
theorem executed_respond (s : State) (response : Bytes) : Executed s (s.respond response) response s.regs :=
  ⟨rfl, rfl, respond_regs s response, rfl, rfl, rfl, rfl, rfl⟩

/-- R202: SETKEY of a key that fits. -/
theorem executed_loadKey (s : State) {key : Bytes} (fits : key.length ≤ Config.keyMaxBytes) :
    Executed s ((s.loadKey key).respond [okCode]) [okCode] ⟨true, key, s.cfg⟩ := by
  constructor <;> simp [loadKey_regs s key fits]

/-- R203: SETCFG of a byte without reserved bits. -/
theorem executed_loadCfg (s : State) (c : Byte) :
    Executed s ((s.loadCfg c).respond [okCode, c]) [okCode, c] ⟨s.keyValid, s.key, c⟩ := by
  constructor <;> simp

/-- R200, R202, R203, R116, R144, R176: a command executes as the reference reads its message, once the answer is there
if it asks for one. -/
theorem exec_executes_reference {s : State} {a : EntropyAnswer} {cmd : Bytes} {i : Instr}
    (decoded : decode cmd = .instr i) (answered : asksEntropy s.regs cmd = true → s.entAnswer = some a) :
    ∃ t, exec i s = .next t ∧ Executed s t (reference s.regs a cmd).1 (reference s.regs a cmd).2 := by
  have first := firstError_eq_commandError decoded answered
  cases failed : s.commandError i with
  | some e =>
    rw [reference_of_firstError (first.trans failed)]
    exact ⟨_, exec_of_commandError failed, executed_respond s _⟩
  | none =>
    have passed := first.trans failed
    obtain ⟨-, -, ⟨op, rfl⟩ | ⟨op, -, rfl⟩ | ⟨op, -, rfl⟩ | ⟨op, -, rfl⟩ | ⟨op, rfl⟩⟩ := decode_instr_cases decoded
    · have fits : (keyOperand cmd).length ≤ Config.keyMaxBytes := by simpa [State.commandError] using failed
      rw [reference_setkey passed op]
      exact ⟨_, exec_setkey_of_fits fits s, executed_loadKey s fits⟩
    · have zero : cfgReserved (cfgOperand cmd) = 0#6 := by simpa [State.commandError] using failed
      rw [reference_setcfg passed op]
      exact ⟨_, exec_setcfg_of_unreserved zero s, executed_loadCfg s _⟩
    · have keyed : s.keyValid = true := by simpa [State.commandError] using failed
      rw [reference_derive passed op]
      exact ⟨_, exec_derive_of_keyed keyed _, executed_respond s _⟩
    · obtain ⟨keyed, fits, notFail⟩ := commandError_encode_eq_none_iff.1 failed
      have answer := answered ((asksEntropy_iff s cmd).2 ⟨frameOperand cmd, decoded, keyed, fits⟩)
      cases a with
      | fail => exact absurd answer notFail
      | bytes n =>
        rw [reference_encode passed op]
        exact ⟨_, exec_encode_responds_enc (f := frameOperand cmd) keyed fits answer, executed_respond s _⟩
    · obtain ⟨keyed, valid⟩ := commandError_decode_eq_none_iff.1 failed
      obtain ⟨long, -⟩ := (validate_eq_none _ _ _).1 valid
      rw [reference_decode passed op long]
      exact ⟨_, exec_decode_of_passed keyed valid, executed_respond s _⟩

/-- R200, R101: EXEC of any message answers as the reference reads it, once the answer is there if it asks for one. -/
theorem execStep_executes_reference {s : State} {a : EntropyAnswer} {c : Cur} (held : s.cur = some c)
    (answered : asksEntropy s.regs c.msg = true → s.entAnswer = some a) :
    ∃ t, execStep s = .next t ∧ Executed s t (reference s.regs a c.msg).1 (reference s.regs a c.msg).2 := by
  cases decoded : decode c.msg with
  | error e =>
    rw [reference_of_firstError (firstError_of_decode_error _ _ decoded)]
    exact ⟨_, execStep_of_decode_error held decoded, executed_respond s _⟩
  | instr i =>
    rw [execStep_of_decode_instr held decoded]
    exact exec_executes_reference decoded answered

/-! ### One whole command, and fair runs: proofs -/

/-- R287: a fair run's turns are those of its first command and then those of the rest, from where that command leaves
the registers and the count of requests. -/
theorem fairTurns_cons (n : Nat) (r : Regs) (cmd : Bytes) (a : EntropyAnswer) (rest : List (Bytes × EntropyAnswer)) :
    fairTurns n r ((cmd, a) :: rest) =
      fairTurns n r [(cmd, a)] ++ fairTurns (n + if asksEntropy r cmd then 1 else 0) (reference r a cmd).2 rest := by
  by_cases asks : asksEntropy r cmd = true <;> simp [fairTurns, asks]

/-- R287: a command that asks for a nonce executes, waits for it, and executes again. -/
theorem fairTurns_of_asks {n : Nat} {r : Regs} {cmd : Bytes} (asks : asksEntropy r cmd = true) (a : EntropyAnswer) :
    fairTurns n r [(cmd, a)] = [.cfc, .cfc, .entropyAnswer (n + 1) a, .cfc, .hostTake] := by
  simp [fairTurns, asks]

/-- R287: any other command executes once. -/
theorem fairTurns_of_not_asks {n : Nat} {r : Regs} {cmd : Bytes} (asks : ¬asksEntropy r cmd = true)
    (a : EntropyAnswer) : fairTurns n r [(cmd, a)] = [.cfc, .cfc, .hostTake] := by
  simp [fairTurns, asks]

/-- The command `cmd`, waiting first in `s`, is about to execute to its end in `u`: the answer is there if it asks for
one, and after this execution HOST takes the response. -/
structure AboutToExecute (s u : State) (cmd : Bytes) (a : EntropyAnswer) (rest : List Bytes) (ts : List Turn) :
    Prop where
  phase : u.phase = .exec
  msg : ∃ c, u.cur = some c ∧ c.msg = cmd
  answered : asksEntropy s.regs cmd = true → u.entAnswer = some a
  regs : u.regs = s.regs
  entRequests : u.entRequests = s.entRequests + if asksEntropy s.regs cmd then 1 else 0
  offers : u.offers = rest
  taken : u.taken = s.taken
  accepted : u.accepted = s.accepted ++ [cmd]
  turns : u.turns = .cfc :: .hostTake :: ts

/-- The command `cmd`, waiting first in `s`, has been answered in `t`, as the reference reads it. -/
structure Answered (s t : State) (cmd : Bytes) (a : EntropyAnswer) (rest : List Bytes) (ts : List Turn) : Prop where
  phase : t.phase = .idle
  regs : t.regs = (reference s.regs a cmd).2
  entRequests : t.entRequests = s.entRequests + if asksEntropy s.regs cmd then 1 else 0
  offers : t.offers = rest
  taken : t.taken = s.taken ++ [(reference s.regs a cmd).1]
  accepted : t.accepted = s.accepted ++ [cmd]
  turns : t.turns = ts

/-- R200: on the CFC's turn in EXEC the step runs CUR's command on the state without that turn. -/
theorem step_of_exec {s : State} {ts : List Turn} (inExec : s.phase = .exec) (turn : s.turns = .cfc :: ts) :
    step s = execStep (s.withTurns ts) :=
  TurnUsed.step_eq_execStep (.inr ⟨ts, turn, rfl⟩) inExec

/-- R200, R34: the execution to the end and HOST's taking. -/
theorem AboutToExecute.run {s u : State} {cmd : Bytes} {a : EntropyAnswer} {rest : List Bytes} {ts : List Turn}
    (about : AboutToExecute s u cmd a rest ts) :
    ∃ t, Host.Core.run Sys2Proof.core 2 u = .next t ∧ Answered s t cmd a rest ts := by
  obtain ⟨c, held, rfl⟩ := about.msg
  have held : (u.withTurns (.hostTake :: ts)).cur = some c := held
  have regs : (u.withTurns (.hostTake :: ts)).regs = s.regs := by rw [withTurns_regs, about.regs]
  obtain ⟨v, executes, executed⟩ := execStep_executes_reference (a := a) held fun asks => about.answered (regs ▸ asks)
  rw [regs] at executed
  rw [← step_of_exec about.phase about.turns] at executes
  have taking := step_takes executed.phase executed.resp executed.turns
  refine ⟨_, (run_succ 1 executes).trans (run_succ 0 taking), ?_⟩
  exact {
    phase := rfl
    regs := by rw [release_regs, withTurns_regs, executed.regs]
    entRequests := executed.entRequests.trans about.entRequests
    offers := executed.offers.trans about.offers
    taken := by rw [release_taken, withTurns_taken, executed.taken, withTurns_taken, about.taken]
    accepted := executed.accepted.trans about.accepted
    turns := rfl }

/-- R33: on the CFC's turn in IDLE the step accepts the message waiting first. -/
theorem step_of_idle {s : State} {msg : Bytes} {rest : List Bytes} {ts : List Turn} (idle : s.phase = .idle)
    (offered : s.offers = msg :: rest) (turn : s.turns = .cfc :: ts) :
    step s = .next (((s.withTurns ts).withOffers rest).accept msg) :=
  TurnUsed.step_accepts (.inr ⟨ts, turn, rfl⟩) idle offered

/-- R36, R146, R32: a command that asks for a nonce makes its request, and ENTROPY's answer lifts the hold. -/
theorem run_through_hold {s : State} {c : Cur} {a : EntropyAnswer} {ts us : List Turn} (inExec : s.phase = .exec)
    (held : s.cur = some c) (asks : asksEntropy s.regs c.msg = true) (unanswered : s.entAnswer = none)
    (turns : s.turns = .cfc :: us) (answers : us = .entropyAnswer (s.entRequests + 1) a :: ts) :
    ∃ f, Host.Core.run Sys2Proof.core 2 s =
      .next ((((s.withTurns us).requestEntropy f).withTurns ts).liftHold a) := by
  have asks : asksEntropy (s.withTurns us).regs c.msg = true := by rwa [withTurns_regs]
  obtain ⟨f, requests⟩ := execStep_requests (s := s.withTurns us) held asks unanswered
  rw [← step_of_exec inExec turns] at requests
  exact ⟨f, (run_succ 1 requests).trans (run_succ 0 (step_lifts rfl answers))⟩

/-- R33, R36, R146: a fair run accepts the command waiting first and, if it asks for a nonce, has ENTROPY answer it. -/
theorem run_to_execution {s : State} {cmd : Bytes} {a : EntropyAnswer} {rest : List Bytes} {ts : List Turn}
    (idle : s.phase = .idle) (unanswered : s.entAnswer = none) (offered : s.offers = cmd :: rest)
    (turns : s.turns = fairTurns s.entRequests s.regs [(cmd, a)] ++ ts) :
    ∃ k u, (fairTurns s.entRequests s.regs [(cmd, a)]).length = k + 2 ∧
      Host.Core.run Sys2Proof.core k s = .next u ∧ AboutToExecute s u cmd a rest ts := by
  by_cases asks : asksEntropy s.regs cmd = true
  · rw [fairTurns_of_asks asks] at turns ⊢
    have accepts := step_of_idle idle offered turns
    have asks' (us : List Turn) : asksEntropy (((s.withTurns us).withOffers rest).accept cmd).regs cmd = true := by
      rwa [accept_regs, withOffers_regs, withTurns_regs]
    obtain ⟨f, waited⟩ := run_through_hold (a := a) (ts := .cfc :: .hostTake :: ts)
      (us := .entropyAnswer (s.entRequests + 1) a :: .cfc :: .hostTake :: ts)
      (s := ((s.withTurns (.cfc :: _)).withOffers rest).accept cmd) rfl rfl (asks' _) unanswered rfl rfl
    refine ⟨3, _, rfl, (run_succ 2 accepts).trans waited, ?_⟩
    exact {
      phase := rfl
      msg := ⟨_, rfl, rfl⟩
      answered := fun _ => rfl
      regs := by simp
      entRequests := by simp [asks]
      offers := rfl
      taken := rfl
      accepted := rfl
      turns := rfl }
  · rw [fairTurns_of_not_asks asks] at turns ⊢
    have accepts := step_of_idle idle offered turns
    refine ⟨1, _, rfl, run_succ 0 accepts, ?_⟩
    exact {
      phase := rfl
      msg := ⟨_, rfl, rfl⟩
      answered := fun asked => absurd asked asks
      regs := by simp
      entRequests := by simp [asks]
      offers := rfl
      taken := rfl
      accepted := rfl
      turns := rfl }

/-- R40: in IDLE no request is pending. -/
theorem State.Inv.not_pending_of_idle {s : State} (inv : s.Inv) (idle : s.phase = .idle) : s.entPending = false := by
  rw [Bool.eq_false_iff]
  intro pending
  exact absurd (idle.symm.trans (inv.pending_iff_waiting.1 pending)) (by decide)

/-- R34, R60, R200, R287: the fair run of the command waiting first answers it as the reference reads it. -/
theorem run_answers {s : State} {cmd : Bytes} {a : EntropyAnswer} {rest : List Bytes} {ts : List Turn} (inv : s.Inv)
    (idle : s.phase = .idle) (offered : s.offers = cmd :: rest)
    (turns : s.turns = fairTurns s.entRequests s.regs [(cmd, a)] ++ ts) :
    ∃ t, Host.Core.run Sys2Proof.core (fairTurns s.entRequests s.regs [(cmd, a)]).length s = .next t ∧
      Answered s t cmd a rest ts := by
  obtain ⟨k, u, length, ran, about⟩ := run_to_execution idle (inv.unanswered (idle ▸ nofun)) offered turns
  obtain ⟨t, rest, answered⟩ := about.run
  exact ⟨t, by rw [length, run_add ran, rest], answered⟩

/-- Settles O55: the command is answered as the reference reads it, and then its run is over. -/
theorem oneCommandFollowsTheReference : Obligations.OneCommandFollowsTheReference := by
  unfold Obligations.OneCommandFollowsTheReference
  intro s cmd a rest ts inv idle offered turns
  obtain ⟨t, ran, answered⟩ := run_answers inv idle offered turns
  have inv' := inv.run ran
  have runOver : t.RunOver s [cmd] :=
    ⟨answered.accepted, by rw [answered.taken, List.length_append]; rfl, answered.phase,
      inv'.not_pending_of_idle answered.phase⟩
  exact ⟨t, ran, inv', answered.phase, answered.offers, answered.turns, answered.taken, answered.regs,
    answered.accepted, runOver, answered.entRequests⟩

/-- Settles O56, by induction on the commands: the first is answered as the reference reads it, and leaves a state from
which the rest is a fair run again. -/
theorem fairRunFollowsTheReference : Obligations.FairRunFollowsTheReference := by
  unfold Obligations.FairRunFollowsTheReference
  intro cmds
  induction cmds with
  | nil =>
    intro s inv idle offered turns
    exact ⟨s, rfl, inv, offered, turns, ⟨(List.append_nil _).symm, rfl, idle, inv.not_pending_of_idle idle⟩,
      (List.append_nil _).symm, rfl⟩
  | cons command rest ih =>
    intro s inv idle offered turns
    obtain ⟨cmd, a⟩ := command
    rw [fairTurns_cons] at turns ⊢
    obtain ⟨t, ran, answered⟩ := run_answers inv idle offered turns
    rw [← answered.entRequests, ← answered.regs, List.length_append, run_add ran]
    have turns' : t.turns = fairTurns t.entRequests t.regs rest := by
      rw [answered.turns, answered.entRequests, answered.regs]
    obtain ⟨u, ranRest, inv', offers, noTurns, ⟨accepted, taken, idle', notPending⟩, responses, regs⟩ :=
      ih t (inv.run ran) answered.phase answered.offers turns'
    have runOver : u.RunOver s (((cmd, a) :: rest).map (·.1)) := by
      refine ⟨?_, ?_, idle', notPending⟩
      · rw [accepted, answered.accepted, List.append_assoc]
        rfl
      · simp only [taken, answered.taken, List.length_append, List.length_map, List.length_cons, List.length_nil]
        omega
    refine ⟨u, ranRest, inv', offers, noTurns, runOver, ?_, ?_⟩
    · rw [responses, answered.taken, answered.regs, List.append_assoc]
      rfl
    · rw [regs, answered.regs]
      rfl

end Sys2Proof.Machine
